-- ==== Sys2Proof/Word.lean ====
section
/-! DEFINITION. The word types of the ZQLWE block (spec/00_scope.md R6, spec/20_memory.md R57, R59). -/

namespace Sys2Proof

/-- A 32-bit bus, register or command word (R57, R60, R81), and an entropy draw (R58). -/
abbrev Word := BitVec 32

/-- One 16-bit element of operand memory (R59), and a 16-bit register value (R30, R31, R43). -/
abbrev Elem := BitVec 16

/-- One byte lane of the host bus (R60). -/
abbrev Lane := BitVec 8

/-- A descriptor index 0..15 (R41, R83). -/
abbrev DescIdx := Fin 16

end Sys2Proof
end

