-- ==== Sys2Proof/Config.lean ====
section
/-! DEFINITION. The constants of this hardware and its one family of free values. -/

namespace Sys2Proof.Config

/-- The value ID reads as (spec/10_state.md R26). -/
def idValue : Word := 0x5A510100#32

/-- The reference value of the OPEN parameter MEM_WORDS (spec/00_scope.md R6). Log entry 5. -/
def refMemWords : Nat := 131072

/-- The largest legal MEM_WORDS, 2^20 (spec/00_scope.md R6). -/
def maxMemWords : Nat := 1048576

/-- The byte offset of memory-window word 0 (spec/20_memory.md R66). -/
def windowBase : Nat := 0x400000

/-- FREE VALUE. What an element of an aborted command's destination region holds after a soft reset is "an
unspecified 16-bit value" (spec/70_reset_and_hazards.md R174, spec/93 U2): a constant without a body, applied to the
counter `State.freeCtr`. Log entry 7. -/
opaque unspecifiedElem : Nat → Elem

end Sys2Proof.Config
end

