-- ==== Sys2Proof/Syntax.lean ====
section
/-! DEFINITION. The commands of the block: one constructor per row of spec/opcode_table.json. -/

namespace Sys2Proof

/-- The six commands (spec/30_encoding.md R85). Descriptor operands are indices 0..15 (R83). The size of GSAMP is a
count, a natural number; `Instr.wellFormed` holds it to the 16 bits of IMM16 (R84). -/
inductive Instr where
  /-- NOP (spec/40_command_protocol.md R113). -/
  | nop
  /-- MMUL dD, dA, dB (spec/41_matrix_engine.md R115). -/
  | mmul (d a b : DescIdx)
  /-- MADD dD, dA, dB (R119). -/
  | madd (d a b : DescIdx)
  /-- MTRN dD, dA (R121). -/
  | mtrn (d a : DescIdx)
  /-- GSAMP dD, #size (spec/42_gaussian_sampler.md R129). -/
  | gsamp (d : DescIdx) (size : Nat)
  /-- DECB dD, dV, dW (spec/43_bit_decoder.md R140). -/
  | decb (d v w : DescIdx)
  deriving DecidableEq, Repr

end Sys2Proof
end

