-- ==== Sys2Proof/Machine/State.lean ====
section
/-! DEFINITION. The state of the block as plain data (spec/10_state.md R23), the reasons a step can stop, and the
state after a power-on reset (R53). -/

namespace Sys2Proof.Machine

/-- ID holds one value only (spec/10_state.md R26): a register that no access and no command can change. -/
inductive IdRegister where
  | zqlwe
  deriving DecidableEq, Repr

/-- The error codes of spec/60_exceptions.md R152. -/
inductive ErrCode where
  /-- 0: the command succeeded. -/
  | ok
  /-- 1, ERR_DIM: operand shapes are incompatible. -/
  | dim
  /-- 2, ERR_ILLEGAL: a reserved opcode or a nonzero must-be-zero field. -/
  | illegal
  /-- 3, ERR_MODULUS: q < 2 for a command that uses q. -/
  | modulus
  /-- 4, ERR_PARAM: SIGMA = 0 for GSAMP. -/
  | param
  /-- 5, ERR_BOUNDS: a region lies outside operand memory. -/
  | bounds
  deriving DecidableEq, Repr

/-- The fields of STATUS (spec/10_state.md R32). -/
structure Status where
  busy : Bool
  done : Bool
  cmdovr : Bool
  accerr : Bool
  err : BitVec 4
  deriving DecidableEq, Repr

/-- A matrix descriptor (spec/10_state.md R41), and a snapshot of one (spec/00_scope.md R16). -/
structure Desc where
  base : BitVec 20
  rows : BitVec 16
  cols : BitVec 16
  deriving DecidableEq, Repr

/-- INFLIGHT (spec/40_command_protocol.md R100, spec/10_state.md R49). Its destination region is a function of
`word` and `dsnap` (R110, R111) and is not stored twice. Log entry 12. -/
structure Inflight where
  word : Word
  dsnap : Vector Desc 16
  q : BitVec 16
  sigma : BitVec 16
  draws : List Word
  deriving DecidableEq, Repr

/-- The direction of a bus access, with the write data of a write (spec/20_memory.md R57). -/
inductive BusDir where
  | read
  | write (wdata : Word)
  deriving DecidableEq, Repr

/-- One host bus access (spec/20_memory.md R57): byte offset, byte strobes, direction. -/
structure Access where
  off : BitVec 23
  be : BitVec 4
  dir : BusDir
  deriving DecidableEq, Repr

/-- One turn of an agent (spec/00_scope.md R9) or of the reset pin (spec/70_reset_and_hazards.md R171). Log entry 2. -/
inductive Turn where
  /-- The host performs one bus access. -/
  | host (a : Access)
  /-- The block executor may take a step. -/
  | executor
  /-- The entropy source offers one more draw. -/
  | entropy (z : Word)
  /-- The pin rst_n is driven to this level. -/
  | rstN (level : Bool)
  deriving DecidableEq, Repr

/-- The written elements of operand memory: (element index, value), indices strictly rising. An index that is not
listed is an unwritten element, which has no value (spec/20_memory.md R59, R70). Log entry 6. -/
abbrev Memory := List (Nat × Elem)

/-- The canonical form of a memory: indices strictly rising. -/
abbrev Memory.wf (m : Memory) : Prop := m.Pairwise (fun x y => x.1 < y.1)

/-- The state of the block (spec/10_state.md R23), with its ports and its parameter. -/
structure State where
  /-- ID (R26). -/
  idReg : IdRegister
  /-- CTRL.IE (R27). -/
  ie : Bool
  /-- Q (R30). -/
  q : BitVec 16
  /-- SIGMA (R31). -/
  sigma : BitVec 16
  /-- STATUS (R32). -/
  status : Status
  /-- CMD_LAST (R40). -/
  cmdLast : Word
  /-- D0..D15 (R41). -/
  descs : Vector Desc 16
  /-- INFLIGHT (R49). -/
  inflight : Option Inflight
  /-- MEM, the operand memory (spec/20_memory.md R59). -/
  mem : Memory
  /-- The OPEN parameter MEM_WORDS (spec/00_scope.md R6). Log entry 5. -/
  memWords : Nat
  /-- The level of the pin rst_n (spec/20_memory.md R55). -/
  rstN : Bool
  /-- The draws offered on the entropy port and not yet taken (R58). Log entry 4. -/
  entropy : List Word
  /-- The turns still to come, first one next. Log entry 2. -/
  sched : List Turn
  /-- The read data answered to the latest host access; none for a write (R57). Log entry 8. -/
  rdata : Option Word
  /-- How many free values have been used. Log entry 7. -/
  freeCtr : Nat
  deriving DecidableEq, Repr

/-- Why the machine stops with a fault. -/
inductive Fault where
  /-- Raised by a host read of an element never written since power-on (spec/20_memory.md R70, spec/93 U1). Safe. -/
  | hostReadUnwritten
  /-- Raised by a command that reads an element never written since power-on (spec/20_memory.md R70, spec/93 U1).
  Safe. -/
  | commandReadUnwritten
  deriving DecidableEq, Repr

/-- Why the machine refuses a step. -/
inductive Refusal where
  /-- Raised by an arm of exec whose instruction has no meaning yet; no arm is left in that state. Safe. -/
  | notModelled (mnemonic : String)
  /-- Raised by a host access while rst_n = 0, which "has no defined effect, and a model refuses it"
  (spec/70_reset_and_hazards.md R171, spec/93 U3). Safe. -/
  | accessDuringReset
  deriving DecidableEq, Repr

/-- STATUS after any reset (R53). -/
def Status.reset : Status :=
  { busy := false, done := false, cmdovr := false, accerr := false, err := 0#4 }

/-- A descriptor after any reset (R53). -/
def Desc.reset : Desc := { base := 0#20, rows := 0#16, cols := 0#16 }

/-- The block of `memWords` elements right after a power-on reset (R53, spec/70_reset_and_hazards.md R171, R172). -/
def State.powerOn (memWords : Nat) : State where
  idReg := .zqlwe
  ie := false
  q := 0#16
  sigma := 0#16
  status := Status.reset
  cmdLast := 0#32
  descs := Vector.replicate 16 Desc.reset
  inflight := none
  mem := []
  memWords := memWords
  rstN := true
  entropy := []
  sched := []
  rdata := none
  freeCtr := 0

/-- The block of the reference size right after a power-on reset. Log entry 5. -/
def State.reset : State := State.powerOn Config.refMemWords

end Sys2Proof.Machine
end

