-- ==== Sys2Proof/Machine/Flags.lean ====
section
/-! DEFINITION. The STATUS register and every flag computation of the block (spec/10_state.md R32 to R39, R47, R51). -/

namespace Sys2Proof.Machine

/-- The STATUS.ERR code of spec/60_exceptions.md R152. -/
def ErrCode.bits : ErrCode → BitVec 4
  | .ok => 0#4
  | .dim => 1#4
  | .illegal => 2#4
  | .modulus => 3#4
  | .param => 4#4
  | .bounds => 5#4

/-- STATUS as a host read returns it (R32): bits 31:8 read 0. -/
def Status.toWord (st : Status) : Word :=
  0#24 ++ st.err ++ BitVec.ofBool st.accerr ++ BitVec.ofBool st.cmdovr ++ BitVec.ofBool st.done
    ++ BitVec.ofBool st.busy

/-- A host write of w to STATUS clears the W1C flags whose bit of w is 1 (R39). -/
def Status.writeOneToClear (st : Status) (w : Word) : Status :=
  { st with
    done := st.done && !w.getLsbD 1
    cmdovr := st.cmdovr && !w.getLsbD 2
    accerr := st.accerr && !w.getLsbD 3 }

/-- The flags at the issue of a command (spec/40_command_protocol.md R100). -/
def Status.onIssue (st : Status) : Status := { st with done := false, err := 0#4, busy := true }

/-- The flags at the completion of a command with an error code (spec/40_command_protocol.md R103). -/
def Status.onCompletion (st : Status) (code : ErrCode) : Status :=
  { st with err := code.bits, busy := false, done := true }

/-- The flags at a rejected host access (R37). -/
def Status.onRejectedAccess (st : Status) : Status := { st with accerr := true }

/-- The flags at a CMD write while BUSY (R36, spec/70_reset_and_hazards.md R178). -/
def Status.onCommandOverrun (st : Status) : Status := { st with cmdovr := true }

/-- The interrupt output, irq = CTRL.IE ∧ STATUS.DONE (R51). -/
def State.irq (s : State) : Bool := s.ie && s.status.done

end Sys2Proof.Machine
end

