-- ==== Sys2Proof/WellFormed.lean ====
section
/-! DEFINITION. Which terms of `Instr` are commands of the block. -/

namespace Sys2Proof

/-- The operand ranges of spec/30_encoding.md R84 and R92. A descriptor operand lies in d0..d15 by its type; the
immediate of GSAMP "must lie in 0..65535". -/
def Instr.wellFormed : Instr → Bool
  | .nop => true
  | .mmul _ _ _ => true
  | .madd _ _ _ => true
  | .mtrn _ _ => true
  | .gsamp _ size => decide (size < 65536)
  | .decb _ _ _ => true

end Sys2Proof
end

