-- ==== Sys2Proof/Decode.lean ====
section
/-! DEFINITION. The CMD32 decoder and encoder (spec/30_encoding.md R81 to R89). -/

namespace Sys2Proof

/-- Why a word is ILLEGAL (R87): a reserved opcode (R88) or a nonzero must-be-zero field (R89). Both complete with
ERR_ILLEGAL (spec/40_command_protocol.md R108). -/
inductive Illegal where
  | reservedOpcode
  | mustBeZero
  deriving DecidableEq, Repr

/-! ### Fields (R82) -/

/-- OPC = w[31:28]. -/
def opcField (w : Word) : BitVec 4 := w.extractLsb' 28 4
/-- IMM16 = w[27:12], unsigned (R84). -/
def immField (w : Word) : BitVec 16 := w.extractLsb' 12 16
/-- D = w[11:8]. -/
def dField (w : Word) : DescIdx := (w.extractLsb' 8 4).toFin
/-- A = w[7:4]. -/
def aField (w : Word) : DescIdx := (w.extractLsb' 4 4).toFin
/-- B = w[3:0]. -/
def bField (w : Word) : DescIdx := (w.extractLsb' 0 4).toFin

/-- One case of R87: the instruction if its must-be-zero fields are 0, else ILLEGAL. -/
def legalIf (ok : Bool) (i : Instr) : Except Illegal Instr :=
  if ok then .ok i else .error .mustBeZero

/-- The decoder of R87, total on every 32-bit word. -/
def decode (w : Word) : Except Illegal Instr :=
  match (opcField w).toNat with
  | 0 => legalIf (w.extractLsb' 0 28 == 0) .nop
  | 1 => legalIf (immField w == 0) (.mmul (dField w) (aField w) (bField w))
  | 2 => legalIf (immField w == 0) (.madd (dField w) (aField w) (bField w))
  | 3 => legalIf (immField w == 0 && bField w == 0) (.mtrn (dField w) (aField w))
  | 4 => legalIf (aField w == 0 && bField w == 0) (.gsamp (dField w) (immField w).toNat)
  | 5 => legalIf (immField w == 0) (.decb (dField w) (aField w) (bField w))
  | _ => .error .reservedOpcode

/-- The word with the given fields, by the formula of R82:
w = OPC·2^28 + IMM16·2^12 + D·2^8 + A·2^4 + B. DESIGN CHOICE (log entry 18): of an immediate of 65536 or more, which no
well-formed command has (R84) and the assembler rejects (R92), the low 16 bits go into IMM16 and none into OPC. -/
def cmd32 (opc imm : Nat) (d a b : DescIdx) : Word :=
  BitVec.ofNat 32 (opc * 2 ^ 28 + imm % 2 ^ 16 * 2 ^ 12 + d.val * 2 ^ 8 + a.val * 2 ^ 4 + b.val)

/-- The word of a well-formed command (R82, R85, R91). -/
def encode : Instr → Word
  | .nop => cmd32 0 0 0 0 0
  | .mmul d a b => cmd32 1 0 d a b
  | .madd d a b => cmd32 2 0 d a b
  | .mtrn d a => cmd32 3 0 d a 0
  | .gsamp d size => cmd32 4 size d 0 0
  | .decb d v w => cmd32 5 0 d v w

/-! ### The match and mask table (R86) -/

/-- One row of R86: a word w is in the row when (w AND mask) = pattern. -/
structure OpcodeRow where
  mnemonic : String
  pattern : Word
  mask : Word
  deriving DecidableEq, Repr

/-- The table of R86, in its order. -/
def opcodeRows : List OpcodeRow :=
  [⟨"NOP", 0x00000000#32, 0xFFFFFFFF#32⟩,
   ⟨"MMUL", 0x10000000#32, 0xFFFFF000#32⟩,
   ⟨"MADD", 0x20000000#32, 0xFFFFF000#32⟩,
   ⟨"MTRN", 0x30000000#32, 0xFFFFF00F#32⟩,
   ⟨"GSAMP", 0x40000000#32, 0xF00000FF#32⟩,
   ⟨"DECB", 0x50000000#32, 0xFFFFF000#32⟩]

/-- "A word w is the instruction in a row when (w AND mask) = match" (R86). -/
def OpcodeRow.covers (r : OpcodeRow) (w : Word) : Bool := (w &&& r.mask) == r.pattern

/-- The mnemonic of a command (R85). -/
def Instr.mnemonic : Instr → String
  | .nop => "NOP"
  | .mmul _ _ _ => "MMUL"
  | .madd _ _ _ => "MADD"
  | .mtrn _ _ => "MTRN"
  | .gsamp _ _ => "GSAMP"
  | .decb _ _ _ => "DECB"

/-- The row of a command (R86). -/
def Instr.row : Instr → OpcodeRow
  | .nop => ⟨"NOP", 0x00000000#32, 0xFFFFFFFF#32⟩
  | .mmul _ _ _ => ⟨"MMUL", 0x10000000#32, 0xFFFFF000#32⟩
  | .madd _ _ _ => ⟨"MADD", 0x20000000#32, 0xFFFFF000#32⟩
  | .mtrn _ _ => ⟨"MTRN", 0x30000000#32, 0xFFFFF00F#32⟩
  | .gsamp _ _ => ⟨"GSAMP", 0x40000000#32, 0xF00000FF#32⟩
  | .decb _ _ _ => ⟨"DECB", 0x50000000#32, 0xFFFFF000#32⟩

/-! ### Byte lanes (spec/20_memory.md R60) -/

/-- Lane j carries bits [8j+7 : 8j] of the word (R60). -/
def laneOf (w : Word) (j : Nat) : Lane := w.extractLsb' (8 * j) 8

/-- The word whose lanes 0 to 3 are given: little-endian (R60). -/
def wordOfLanes (l0 l1 l2 l3 : Lane) : Word := l3 ++ l2 ++ l1 ++ l0

/-- Decode the command word that four byte lanes carry (R60, R61). -/
def decodeLanes (l0 l1 l2 l3 : Lane) : Except Illegal Instr := decode (wordOfLanes l0 l1 l2 l3)

/-- The command word of `nbits` bits numbered as spec/opcode_table.json numbers them; bits above are 0. Log entry 17. -/
def tableWord (nbits w : Nat) : Word := BitVec.ofNat 32 (w % 2 ^ nbits)

/-- What the decoder reads from a table word, laid out in its byte lanes (R60). -/
def decodeTableWord (nbits w : Nat) : Option Instr :=
  let x := tableWord nbits w
  match decodeLanes (laneOf x 0) (laneOf x 1) (laneOf x 2) (laneOf x 3) with
  | .ok i => some i
  | .error _ => none

end Sys2Proof
end

