-- ==== Sys2Proof/Machine/Operands.lean ====
section
/-! DEFINITION. Operand forms: descriptor snapshots, elements, regions, and what each command uses
(spec/00_scope.md R14 to R16, spec/20_memory.md R67, R68, spec/40_command_protocol.md R109 to R111). -/

namespace Sys2Proof.Machine

/-! ### Operand memory -/

/-- MemRead(a, 1) (spec/00_scope.md R14): the element at index a, or none if it is unwritten (spec/20_memory.md R70). -/
def Memory.read : Memory → Nat → Option Elem
  | [], _ => none
  | (k, v) :: m, a => if a = k then some v else Memory.read m a

/-- MemWrite(a, 1, v) (spec/00_scope.md R14), keeping the canonical form. -/
def Memory.write : Memory → Nat → Elem → Memory
  | [], a, v => [(a, v)]
  | (k, x) :: m, a, v =>
    if a < k then (a, v) :: (k, x) :: m
    else if a = k then (a, v) :: m
    else (k, x) :: Memory.write m a v

/-- The element writes of a completion, one after the other (spec/40_command_protocol.md R103). -/
def Memory.writeAll : Memory → List (Nat × Elem) → Memory
  | m, [] => m
  | m, (a, v) :: es => Memory.writeAll (m.write a v) es

/-! ### Matrices -/

/-- The element index of entry (i, j): BASE + i·COLS + j (spec/20_memory.md R67). -/
def Desc.elemIndex (M : Desc) (i j : Nat) : Nat := M.base.toNat + i * M.cols.toNat + j

/-- Elem(M, i, j) (spec/00_scope.md R15). -/
def Desc.elem (M : Desc) (m : Memory) (i j : Nat) : Option Elem := m.read (M.elemIndex i j)

/-- A region of n elements from index base on is in bounds: base + n ≤ MEM_WORDS, on exact integers
(spec/20_memory.md R68). -/
def regionInBounds (base n memWords : Nat) : Bool := decide (base + n ≤ memWords)

/-- region(M) is in bounds (spec/20_memory.md R68). -/
def Desc.inBounds (M : Desc) (memWords : Nat) : Bool :=
  regionInBounds M.base.toNat (M.rows.toNat * M.cols.toNat) memWords

/-- snap(D[k]) of the command in flight (spec/00_scope.md R16). -/
def Inflight.snap (fl : Inflight) (k : DescIdx) : Desc := fl.dsnap[k]

/-! ### What each command uses -/

/-- The commands that use the modulus (spec/40_command_protocol.md R109). -/
def usesModulus : Instr → Bool
  | .nop => false
  | .mmul _ _ _ => true
  | .madd _ _ _ => true
  | .mtrn _ _ => false
  | .gsamp _ _ => true
  | .decb _ _ _ => true

/-- The command that uses SIGMA (spec/42_gaussian_sampler.md R132). -/
def usesSigma : Instr → Bool
  | .nop => false
  | .mmul _ _ _ => false
  | .madd _ _ _ => false
  | .mtrn _ _ => false
  | .gsamp _ _ => true
  | .decb _ _ _ => false

/-- ShapeOK(ins) (spec/40_command_protocol.md R110). -/
def shapeOk (i : Instr) (fl : Inflight) : Bool :=
  match i with
  | .nop => true
  | .mmul _ a b => (fl.snap a).cols == (fl.snap b).rows
  | .madd _ a b => (fl.snap a).rows == (fl.snap b).rows && (fl.snap a).cols == (fl.snap b).cols
  | .mtrn _ _ => true
  | .gsamp _ _ => true
  | .decb _ v w => (fl.snap v).rows == (fl.snap w).rows && (fl.snap v).cols == (fl.snap w).cols

/-- The source descriptors whose regions the command reads (spec/40_command_protocol.md R111). -/
def sources : Instr → List DescIdx
  | .nop => []
  | .mmul _ a b => [a, b]
  | .madd _ a b => [a, b]
  | .mtrn _ a => [a]
  | .gsamp _ _ => []
  | .decb _ v w => [v, w]

/-- The destination descriptor and the result shape (R, C) (spec/40_command_protocol.md R110); none for NOP. -/
def resultShape (i : Instr) (fl : Inflight) : Option (DescIdx × Nat × Nat) :=
  match i with
  | .nop => none
  | .mmul d a b => some (d, (fl.snap a).rows.toNat, (fl.snap b).cols.toNat)
  | .madd d a _ => some (d, (fl.snap a).rows.toNat, (fl.snap a).cols.toNat)
  | .mtrn d a => some (d, (fl.snap a).cols.toNat, (fl.snap a).rows.toNat)
  | .gsamp d size => some (d, size, 1)
  | .decb d v _ => some (d, (fl.snap v).rows.toNat, (fl.snap v).cols.toNat)

/-- The destination region as (first index, number of elements) (spec/40_command_protocol.md R111). -/
def destRegion (i : Instr) (fl : Inflight) : Option (Nat × Nat) :=
  (resultShape i fl).map fun (d, r, c) => ((fl.snap d).base.toNat, r * c)

/-- The destination region lies in operand memory; NOP has none (spec/40_command_protocol.md R111). -/
def destInBounds (i : Instr) (fl : Inflight) (memWords : Nat) : Bool :=
  match destRegion i fl with
  | none => true
  | some (base, n) => regionInBounds base n memWords

/-- BoundsOK(ins) (spec/40_command_protocol.md R111). -/
def boundsOk (i : Instr) (fl : Inflight) (memWords : Nat) : Bool :=
  (sources i).all (fun k => (fl.snap k).inBounds memWords) && destInBounds i fl memWords

/-! ### Checks and their order -/

/-- The checks of a decoded command, in the order of spec/40_command_protocol.md R105 and spec/60_exceptions.md R154;
the first that fails gives the code. -/
def checks (i : Instr) (fl : Inflight) (memWords : Nat) : ErrCode :=
  if usesModulus i && decide (fl.q.toNat < 2) then .modulus
  else if usesSigma i && fl.sigma == 0#16 then .param
  else if !shapeOk i fl then .dim
  else if !boundsOk i fl memWords then .bounds
  else .ok

/-- The code of the command in flight: the decode check (R108), then `checks`. -/
def commandCode (fl : Inflight) (memWords : Nat) : ErrCode :=
  match decode fl.word with
  | .error _ => .illegal
  | .ok i => checks i fl memWords

end Sys2Proof.Machine
end

