-- ==== Sys2Proof/Machine/Ops.lean ====
section
/-! DEFINITION. The shared operations: issue, the effects of a command, and completion with or without an error
(spec/40_command_protocol.md R99 to R112). The block takes no trap (spec/60_exceptions.md R155); completing with an
error code is its one form of exception. -/

namespace Sys2Proof.Machine

/-- The outcome of a step of this machine. -/
abbrev StepOutcome := Host.Outcome State Fault Refusal

/-! ### Issue -/

/-- The issue of the command word w (R100), by an accepted CMD write. CMDOVR, ACCERR and CTRL.IE are not touched. -/
def State.issue (s : State) (w : Word) : State :=
  { s with
    cmdLast := w
    status := s.status.onIssue
    inflight := some { word := w, dsnap := s.descs, q := s.q, sigma := s.sigma, draws := [] } }

/-! ### Effects -/

/-- The effects of a successful command (R101): element writes and at most one destination-shape write. -/
structure Effects where
  elems : List (Nat × Elem)
  shape : Option (DescIdx × BitVec 16 × BitVec 16)
  deriving DecidableEq, Repr

/-- No effect: the effects of NOP and of every command that ends with an error (R105, R106). -/
def noEffects : Effects := { elems := [], shape := none }

/-- The descriptors after a destination-shape write (R103): ROWS and COLS of one descriptor, its BASE kept. -/
def writeShape (ds : Vector Desc 16) : Option (DescIdx × BitVec 16 × BitVec 16) → Vector Desc 16
  | none => ds
  | some (k, r, c) => ds.set k { ds[k] with rows := r, cols := c }

/-- All index pairs (i, j) of an r×c matrix, row by row. -/
def entries (r c : Nat) : List (Nat × Nat) :=
  (List.range r).flatMap fun i => (List.range c).map fun j => (i, j)

/-- The list of all values, or none if one of them is missing. -/
def collect {α : Type} : List (Option α) → Option (List α)
  | [] => some []
  | none :: _ => none
  | some x :: xs => (collect xs).map (x :: ·)

/-- The effects of a command whose result is the r×c matrix of the given entries (R112): entry (i, j) goes to
BASE + i·c + j of the destination, and the shape write is (d, r, c). None if an entry reads an unwritten element. -/
def matrixEffects (fl : Inflight) (d : DescIdx) (r c : Nat) (entry : Nat → Nat → Option Elem) : Option Effects :=
  (collect ((entries r c).map fun (i, j) =>
    (entry i j).map fun v => ((fl.snap d).base.toNat + i * c + j, v))).map fun es =>
    { elems := es, shape := some (d, BitVec.ofNat 16 r, BitVec.ofNat 16 c) }

/-! ### Completion -/

/-- The completion of the command in flight with a code and, on success, its effects: one atomic event (R103). -/
def State.complete (s : State) (code : ErrCode) (fx : Effects) : State :=
  { s with
    mem := if code = .ok then s.mem.writeAll fx.elems else s.mem
    descs := if code = .ok then writeShape s.descs fx.shape else s.descs
    status := s.status.onCompletion code
    inflight := none }

/-- A command error (R106, spec/60_exceptions.md R151): the command in flight ends with the code and changes
BUSY, DONE and ERR only. -/
def State.raiseError (s : State) (code : ErrCode) : State := s.complete code noEffects

/-- A command whose checks passed succeeds with its effects, or stops the model because it read an unwritten
element (spec/20_memory.md R70). -/
def State.succeed (s : State) : Option Effects → StepOutcome
  | some fx => .next (s.complete .ok fx)
  | none => .fault .commandReadUnwritten

/-- Run the command i that is in flight: its checks first (R105), and its own rule only if they pass. The executor
has no step when nothing is in flight (R102); then the state stays. Log entry 1. -/
def State.runChecked (s : State) (i : Instr) (rule : Inflight → StepOutcome) : StepOutcome :=
  match s.inflight with
  | none => .next s
  | some fl =>
    match checks i fl s.memWords with
    | .ok => rule fl
    | code => .next (s.raiseError code)

/-! ### Arithmetic shared by the commands -/

/-- floormod(x, q) for q ≥ 1: the r in [0, q) with x − r divisible by q (spec/00_scope.md R12). -/
def floormod (x : Int) (q : Nat) : Nat := (x % (q : Int)).toNat

/-- An element that a command writes: trunc_16 of the value (spec/00_scope.md R14). -/
def toElem (n : Nat) : Elem := BitVec.ofNat 16 n

end Sys2Proof.Machine
end

