-- ==== Sys2Proof/Machine/BitDecoder.lean ====
section
/-! DEFINITION. The LWE bit decoder: DECB (spec/43_bit_decoder.md). -/

namespace Sys2Proof.Machine

/-- DecodeBit(raw, q) (R141): 0 when the circular distance to 0 is less than the distance to ⌊q/2⌋, else 1. A tie
gives 1 (R142). -/
def decodeBit (raw q : Nat) : Nat :=
  let h := q / 2
  let d0 := min raw (q - raw)
  let dHalf := ((raw : Int) - (h : Int)).natAbs
  if d0 < dHalf then 0 else 1

/-- The residue that is decoded: floormod(v − w, q) of the exact difference (R140, R141). -/
def decodeRaw (v w : Elem) (q : Nat) : Nat := floormod ((v.toNat : Int) - (w.toNat : Int)) q

/-- Entry (i, j) of DECB (R140). -/
def decbEntry (V W : Desc) (m : Memory) (q : Nat) (i j : Nat) : Option Elem :=
  match V.elem m i j, W.elem m i j with
  | some v, some w => some (toElem (decodeBit (decodeRaw v w q) q))
  | _, _ => none

/-- Result(DECB d, v, w) (R140). -/
def decbResult (fl : Inflight) (m : Memory) (d v w : DescIdx) : Option Effects :=
  matrixEffects fl d (fl.snap v).rows.toNat (fl.snap v).cols.toNat
    (decbEntry (fl.snap v) (fl.snap w) m fl.q.toNat)

/-- DECB dD, dV, dW: D ← decode((V − W) mod q), elementwise (R140). -/
def execDecb (d v w : DescIdx) (s : State) : StepOutcome :=
  s.runChecked (.decb d v w) fun fl => s.succeed (decbResult fl s.mem d v w)

end Sys2Proof.Machine
end

