-- ==== Sys2Proof/Machine/GaussianSampler.lean ====
section
/-! DEFINITION. The discrete Gaussian sampler: GSAMP and its draw step (spec/42_gaussian_sampler.md). -/

namespace Sys2Proof.Machine

/-- round_half_away(P / 2^24) = sign(P)·⌊(|P| + 2^23) / 2^24⌋ (R133). -/
def roundHalfAway24 (P : Int) : Int := P.sign * (((P.natAbs + 2 ^ 23) / 2 ^ 24 : Nat) : Int)

/-- The rounded sample k of a draw: P = S·sext_32(Z), exact (R129, R133). -/
def gaussSample (S : BitVec 16) (z : Word) : Int := roundHalfAway24 ((S.toNat : Int) * z.toInt)

/-- The element of a draw: floormod(k, q) (R134). -/
def gaussElem (q : Nat) (S : BitVec 16) (z : Word) : Elem := toElem (floormod (gaussSample S z) q)

/-- The element writes of GSAMP from index `base` on: one draw per element, in ascending order (R129, R131). -/
def gaussWrites (q : Nat) (S : BitVec 16) : Nat → List Word → List (Nat × Elem)
  | _, [] => []
  | base, z :: zs => (base, gaussElem q S z) :: gaussWrites q S (base + 1) zs

/-- Result(GSAMP d, size) (R129). -/
def gsampResult (fl : Inflight) (d : DescIdx) (size : Nat) : Effects :=
  { elems := gaussWrites fl.q.toNat fl.sigma (fl.snap d).base.toNat (fl.draws.take size)
    shape := some (d, BitVec.ofNat 16 size, 1#16) }

/-- The draw step (R131, spec/40_command_protocol.md R102): the next offered draw is appended to INFLIGHT.draws.
With no draw offered the command waits (spec/70_reset_and_hazards.md R184). Log entries 3 and 4. -/
def State.takeDraw (s : State) (fl : Inflight) : StepOutcome :=
  match s.entropy with
  | [] => .next s
  | z :: rest => .next { s with entropy := rest, inflight := some { fl with draws := fl.draws ++ [z] } }

/-- GSAMP dD, #size (R129): it takes draws until it holds `size` of them, then completes. -/
def execGsamp (d : DescIdx) (size : Nat) (s : State) : StepOutcome :=
  s.runChecked (.gsamp d size) fun fl =>
    if fl.draws.length < size then s.takeDraw fl else s.succeed (some (gsampResult fl d size))

/-- The output ent_ready: raised "only while a GSAMP command is in flight and needs its next draw"
(spec/20_memory.md R58), low during reset (spec/70_reset_and_hazards.md R171). -/
def State.entReady (s : State) : Bool :=
  s.rstN && s.status.busy &&
  match s.inflight with
  | none => false
  | some fl =>
    match decode fl.word with
    | .ok (.gsamp d size) => checks (.gsamp d size) fl s.memWords == .ok && decide (fl.draws.length < size)
    | _ => false

end Sys2Proof.Machine
end

