-- ==== Sys2Proof/Machine/MatrixEngine.lean ====
section
/-! DEFINITION. The modular matrix engine: MMUL, MADD, MTRN (spec/41_matrix_engine.md). -/

namespace Sys2Proof.Machine

/-- The accumulator of MMUL after n products: the exact sum of Elem(A, i, k)·Elem(B, k, j) for k < n (R115), or none
if an element is unwritten. It fits 64 bits (R118). -/
def mmulAcc (A B : Desc) (m : Memory) (i j : Nat) : Nat → Option Nat
  | 0 => some 0
  | n + 1 =>
    match mmulAcc A B m i j n, A.elem m i n, B.elem m n j with
    | some acc, some x, some y => some (acc + x.toNat * y.toNat)
    | _, _, _ => none

/-- Entry (i, j) of MMUL: floormod(acc, q) (R115). -/
def mmulEntry (A B : Desc) (m : Memory) (q : Nat) (i j : Nat) : Option Elem :=
  (mmulAcc A B m i j A.cols.toNat).map fun (acc : Nat) => toElem (floormod (acc : Int) q)

/-- Entry (i, j) of MADD: floormod(Elem(A, i, j) + Elem(B, i, j), q) (R119). -/
def maddEntry (A B : Desc) (m : Memory) (q : Nat) (i j : Nat) : Option Elem :=
  match A.elem m i j, B.elem m i j with
  | some x, some y => some (toElem (floormod ((x.toNat : Int) + (y.toNat : Int)) q))
  | _, _ => none

/-- Entry (i, j) of MTRN: Elem(A, j, i), copied unchanged (R121, R122). -/
def mtrnEntry (A : Desc) (m : Memory) (i j : Nat) : Option Elem := A.elem m j i

/-- Result(MMUL d, a, b) (R115). -/
def mmulResult (fl : Inflight) (m : Memory) (d a b : DescIdx) : Option Effects :=
  matrixEffects fl d (fl.snap a).rows.toNat (fl.snap b).cols.toNat
    (mmulEntry (fl.snap a) (fl.snap b) m fl.q.toNat)

/-- Result(MADD d, a, b) (R119). -/
def maddResult (fl : Inflight) (m : Memory) (d a b : DescIdx) : Option Effects :=
  matrixEffects fl d (fl.snap a).rows.toNat (fl.snap a).cols.toNat
    (maddEntry (fl.snap a) (fl.snap b) m fl.q.toNat)

/-- Result(MTRN d, a) (R121). -/
def mtrnResult (fl : Inflight) (m : Memory) (d a : DescIdx) : Option Effects :=
  matrixEffects fl d (fl.snap a).cols.toNat (fl.snap a).rows.toNat (mtrnEntry (fl.snap a) m)

/-- MMUL dD, dA, dB: D ← A·B mod q (R115). -/
def execMmul (d a b : DescIdx) (s : State) : StepOutcome :=
  s.runChecked (.mmul d a b) fun fl => s.succeed (mmulResult fl s.mem d a b)

/-- MADD dD, dA, dB: D ← A+B mod q (R119). -/
def execMadd (d a b : DescIdx) (s : State) : StepOutcome :=
  s.runChecked (.madd d a b) fun fl => s.succeed (maddResult fl s.mem d a b)

/-- MTRN dD, dA: D ← Aᵗ (R121). -/
def execMtrn (d a : DescIdx) (s : State) : StepOutcome :=
  s.runChecked (.mtrn d a) fun fl => s.succeed (mtrnResult fl s.mem d a)

end Sys2Proof.Machine
end

