-- ==== Sys2Proof/Machine/Nop.lean ====
section
/-! DEFINITION. NOP (spec/40_command_protocol.md R113). -/

namespace Sys2Proof.Machine

/-- NOP: Exec = (0, none). -/
def execNop (s : State) : StepOutcome :=
  s.runChecked .nop fun _ => s.succeed (some noEffects)

end Sys2Proof.Machine
end

