-- ==== Sys2Proof/Machine/Dispatch.lean ====
section
/-! DEFINITION. The executor's step for the command in flight, one arm per command
(spec/40_command_protocol.md R102, R103). -/

namespace Sys2Proof.Machine

def exec (i : Instr) (s : State) : Host.Outcome State Fault Refusal :=
  match i with
  | .nop => Sys2Proof.Machine.execNop s
  | .mmul d a b => Sys2Proof.Machine.execMmul d a b s
  | .madd d a b => Sys2Proof.Machine.execMadd d a b s
  | .mtrn d a => Sys2Proof.Machine.execMtrn d a s
  | .gsamp d size => Sys2Proof.Machine.execGsamp d size s
  | .decb d v w => Sys2Proof.Machine.execDecb d v w s

end Sys2Proof.Machine
end

