-- ==== Sys2Proof/Machine/Reset.lean ====
section
/-! DEFINITION. Power-on reset, soft reset and the abort of a command in flight
(spec/70_reset_and_hazards.md R171 to R174). -/

namespace Sys2Proof.Machine

/-- Every register at its value in the reset table of spec/10_state.md R53, and no command in flight. Memory, the
parameter and the ports stay. -/
def State.resetRegisters (s : State) : State :=
  { s with
    ie := false
    q := 0#16
    sigma := 0#16
    status := Status.reset
    cmdLast := 0#32
    descs := Vector.replicate 16 Desc.reset
    inflight := none }

/-- n element writes of free values from index `base` on, numbered from `ctr` (R174, spec/93 U2). -/
def freeWrites : Nat → Nat → Nat → List (Nat × Elem)
  | _, _, 0 => []
  | base, ctr, n + 1 => (base, Config.unspecifiedElem ctr) :: freeWrites (base + 1) (ctr + 1) n

/-- The number of elements of the destination region, and its first index, that the abort of this command leaves
unspecified: its whole destination region if its checks pass, nothing if they fail or it is a NOP (R174). -/
def abortedRegion (fl : Inflight) (memWords : Nat) : Nat × Nat :=
  match decode fl.word with
  | .error _ => (0, 0)
  | .ok i => if checks i fl memWords = .ok then (destRegion i fl).getD (0, 0) else (0, 0)

/-- Operand memory after the abort of the command in flight (R174). Log entry 7. -/
def State.abort (s : State) : State :=
  match s.inflight with
  | none => s
  | some fl =>
    let r := abortedRegion fl s.memWords
    { s with mem := s.mem.writeAll (freeWrites r.1 s.freeCtr r.2), freeCtr := s.freeCtr + r.2 }

/-- The soft reset of R173: abort what is in flight, then every register to its reset value. -/
def State.softReset (s : State) : State :=
  (if s.status.busy then s.abort else s).resetRegisters

/-- The power-on reset of R171 and R172: every register to its reset value, every element unwritten, a command in
flight abandoned with no effect. -/
def State.powerOnReset (s : State) : State :=
  { s.resetRegisters with mem := [], rdata := none }

/-- The pin rst_n is driven to a level (R171). Low: the block is held in the reset state. From low to high: it is in
the reset state and idle. Log entry 10. -/
def State.driveRstN (s : State) (level : Bool) : State :=
  if level then (if s.rstN then s else { s.powerOnReset with rstN := true })
  else { s.powerOnReset with rstN := false }

end Sys2Proof.Machine
end

