-- ==== Sys2Proof/Machine/HostBus.lean ====
section
/-! DEFINITION. The host bus: address map, access rules and the registers as the host sees them
(spec/10_state.md R25 to R46, spec/20_memory.md R57 to R70, spec/70_reset_and_hazards.md R178, R179, R189). -/

namespace Sys2Proof.Machine

/-! ### Address map -/

/-- What an aligned byte offset names (spec/10_state.md R25, spec/20_memory.md R66). -/
inductive Target where
  | id
  | ctrl
  | status
  | cmd
  | q
  | sigma
  | descBase (k : DescIdx)
  | descShape (k : DescIdx)
  | mem (i : Nat)
  /-- A reserved or unmapped offset (spec/10_state.md R46). -/
  | reserved
  deriving DecidableEq, Repr

/-- The target of an aligned byte offset (spec/10_state.md R25, spec/20_memory.md R66). -/
def targetOf (off : Nat) : Target :=
  if off = 0x000 then .id
  else if off = 0x004 then .ctrl
  else if off = 0x008 then .status
  else if off = 0x00C then .cmd
  else if off = 0x010 then .q
  else if off = 0x014 then .sigma
  else if 0x100 ≤ off ∧ off < 0x180 then
    if off % 8 = 0 then .descBase (Fin.ofNat 16 ((off - 0x100) / 8))
    else .descShape (Fin.ofNat 16 ((off - 0x100) / 8))
  else if Config.windowBase ≤ off then .mem ((off - Config.windowBase) / 4)
  else .reserved

/-- An aligned full word: off mod 4 = 0 and be = 0b1111 (spec/20_memory.md R62). -/
def Access.isAlignedWord (a : Access) : Bool := a.off.toNat % 4 == 0 && a.be == 0b1111#4

/-! ### Register contents -/

/-- The value of ID (spec/10_state.md R26). -/
def IdRegister.value : IdRegister → Word
  | .zqlwe => Config.idValue

/-- CTRL as read: IE in bit 0, SRST and the reserved bits read 0 (spec/10_state.md R27 to R29). -/
def State.ctrlWord (s : State) : Word := 0#31 ++ BitVec.ofBool s.ie

/-- DESCk_BASE as read: BASE in bits [19:0], bits [31:20] read 0 (spec/10_state.md R42). -/
def Desc.baseWord (M : Desc) : Word := 0#12 ++ M.base

/-- DESCk_SHAPE as read: COLS in bits [31:16], ROWS in bits [15:0] (spec/10_state.md R43). -/
def Desc.shapeWord (M : Desc) : Word := M.cols ++ M.rows

/-- A 16-bit value in bits [15:0], bits [31:16] read 0 (spec/10_state.md R30, R31, spec/20_memory.md R69). -/
def halfWord (v : BitVec 16) : Word := 0#16 ++ v

/-! ### Rejected accesses -/

/-- The targets that are blocked while BUSY (spec/10_state.md R25, spec/70_reset_and_hazards.md R179). A CMD write
while BUSY is not rejected with ACCERR but dropped with CMDOVR (R178). -/
def Target.blockedWhileBusy : Target → Bool
  | .id => false
  | .ctrl => false
  | .status => false
  | .cmd => false
  | .q => true
  | .sigma => true
  | .descBase _ => true
  | .descShape _ => true
  | .mem _ => true
  | .reserved => false

/-- A window index at or beyond MEM_WORDS (spec/20_memory.md R66). -/
def Target.outOfRange : Target → Nat → Bool
  | .mem i, memWords => decide (memWords ≤ i)
  | _, _ => false

/-- The block rejects an aligned full-word access to this target (spec/10_state.md R37). -/
def State.rejects (s : State) (t : Target) : Bool :=
  (s.status.busy && t.blockedWhileBusy) || t.outOfRange s.memWords

/-- A rejected read returns 0 and sets ACCERR (spec/10_state.md R37). -/
def State.rejectRead (s : State) : State :=
  { s with status := s.status.onRejectedAccess, rdata := some 0#32 }

/-- A rejected write changes nothing but ACCERR (spec/10_state.md R37). -/
def State.rejectWrite (s : State) : State :=
  { s with status := s.status.onRejectedAccess, rdata := none }

/-! ### Accepted accesses -/

/-- A read is answered with w and has no other effect (spec/20_memory.md R65). -/
def State.answer (s : State) (w : Word) : State := { s with rdata := some w }

/-- A host read of a memory-window word: the element zero-extended (spec/20_memory.md R69); an unwritten element is
a fault of the model (R70). -/
def State.readWindow (s : State) (i : Nat) : StepOutcome :=
  match s.mem.read i with
  | some v => .next (s.answer (halfWord v))
  | none => .fault .hostReadUnwritten

/-- A read that is not rejected. -/
def State.readTarget (s : State) : Target → StepOutcome
  | .id => .next (s.answer s.idReg.value)
  | .ctrl => .next (s.answer s.ctrlWord)
  | .status => .next (s.answer s.status.toWord)
  | .cmd => .next (s.answer s.cmdLast)
  | .q => .next (s.answer (halfWord s.q))
  | .sigma => .next (s.answer (halfWord s.sigma))
  | .descBase k => .next (s.answer s.descs[k].baseWord)
  | .descShape k => .next (s.answer s.descs[k].shapeWord)
  | .mem i => s.readWindow i
  | .reserved => .next (s.answer 0#32)

/-- A write to CTRL (spec/10_state.md R27, R28): bit 1 performs the soft reset, which wins over IE; else bit 0 is IE. -/
def State.writeCtrl (s : State) (w : Word) : State :=
  if w.getLsbD 1 then s.softReset else { s with ie := w.getLsbD 0 }

/-- A write to CMD: the issue (spec/40_command_protocol.md R100), or, while BUSY, dropped with CMDOVR
(spec/70_reset_and_hazards.md R178). -/
def State.writeCmd (s : State) (w : Word) : State :=
  if s.status.busy then { s with status := s.status.onCommandOverrun } else s.issue w

/-- A write to DESCk_BASE (spec/10_state.md R42). -/
def State.writeBase (s : State) (k : DescIdx) (w : Word) : State :=
  { s with descs := s.descs.set k { s.descs[k] with base := w.extractLsb' 0 20 } }

/-- A write to DESCk_SHAPE (spec/10_state.md R43). -/
def State.writeShapeReg (s : State) (k : DescIdx) (w : Word) : State :=
  { s with descs := s.descs.set k { s.descs[k] with rows := w.extractLsb' 0 16, cols := w.extractLsb' 16 16 } }

/-- The register or element effect of a write that is not rejected. Writes to ID and to reserved offsets are ignored
(spec/10_state.md R26, R46). -/
def State.writeEffect (s : State) (w : Word) : Target → State
  | .id => s
  | .ctrl => s.writeCtrl w
  | .status => { s with status := s.status.writeOneToClear w }
  | .cmd => s.writeCmd w
  | .q => { s with q := w.extractLsb' 0 16 }
  | .sigma => { s with sigma := w.extractLsb' 0 16 }
  | .descBase k => s.writeBase k w
  | .descShape k => s.writeShapeReg k w
  | .mem i => { s with mem := s.mem.write i (w.extractLsb' 0 16) }
  | .reserved => s

/-- A write that is not rejected. It answers no read data. -/
def State.writeTarget (s : State) (w : Word) (t : Target) : State :=
  { s.writeEffect w t with rdata := none }

/-! ### One access -/

/-- A host read (spec/20_memory.md R57): the width rule first (R62, spec/90 C8), then the address. -/
def hostRead (a : Access) (s : State) : StepOutcome :=
  if !a.isAlignedWord then .next s.rejectRead
  else if s.rejects (targetOf a.off.toNat) then .next s.rejectRead
  else s.readTarget (targetOf a.off.toNat)

/-- A host write (spec/20_memory.md R57). -/
def hostWrite (a : Access) (w : Word) (s : State) : StepOutcome :=
  if !a.isAlignedWord then .next s.rejectWrite
  else if s.rejects (targetOf a.off.toNat) then .next s.rejectWrite
  else .next (s.writeTarget w (targetOf a.off.toNat))

/-- One host bus access, one atomic event (spec/20_memory.md R63, R73). An access during reset is refused
(spec/70_reset_and_hazards.md R171). -/
def hostAccess (a : Access) (s : State) : StepOutcome :=
  if !s.rstN then .refused .accessDuringReset
  else
    match a.dir with
    | .read => hostRead a s
    | .write w => hostWrite a w s

end Sys2Proof.Machine
end

