-- ==== Sys2Proof/Machine/Agents.lean ====
section
/-! DEFINITION. The turns of the agents (spec/00_scope.md R9) and the issue that stands for a fetch. -/

namespace Sys2Proof.Machine

/-- The executor runs the command in flight: it decodes its word, and an illegal word completes with ERR_ILLEGAL
(spec/40_command_protocol.md R105, R108). -/
def runInflight (fl : Inflight) (s : State) : StepOutcome :=
  match decode fl.word with
  | .ok i => exec i s
  | .error _ => .next (s.raiseError .illegal)

/-- The executor's turn. It has a step exactly when BUSY = 1 (spec/40_command_protocol.md R102) and the block is not
held in reset; otherwise the state stays. Log entry 3. -/
def executorTurn (s : State) : StepOutcome :=
  if s.rstN && s.status.busy then
    match s.inflight with
    | some fl => runInflight fl s
    | none => .next s
  else .next s

/-- One turn of an agent or of the reset pin. -/
def takeTurn (t : Turn) (s : State) : StepOutcome :=
  match t with
  | .host a => hostAccess a s
  | .executor => executorTurn s
  | .entropy z => .next { s with entropy := s.entropy ++ [z] }
  | .rstN level => .next (s.driveRstN level)

/-- One step: the next turn of the schedule, or, when the schedule is exhausted, the executor's turn. Log entry 2. -/
def nextTurn (s : State) : StepOutcome :=
  match s.sched with
  | [] => executorTurn s
  | t :: rest => takeTurn t { s with sched := rest }

/-- The state in which the command word has just been issued and the very next turn is the executor's. Log entry 16. -/
def State.withIssued (s : State) (w : Word) : State :=
  { s.issue w with rstN := true, sched := [] }

end Sys2Proof.Machine
end

