-- ==== Sys2Proof/Machine/Step.lean ====
section
/-! DEFINITION. The step function of the machine. -/

namespace Sys2Proof.Machine

/-- One step of the block: one atomic event of spec/20_memory.md R73. -/
def step : State → Host.Outcome State Fault Refusal := fun s => nextTurn s

/-- The block has no fetch (spec/10_state.md R24): a command comes from an accepted CMD write. This is the state right
after that write, with nothing scheduled before the executor's turn. Log entry 16. -/
def State.withFetchWord (s : State) (nbits w : Nat) : State := s.withIssued (tableWord nbits w)

end Sys2Proof.Machine
end

