-- ==== Sys2Proof/Machine/Assembler.lean ====
section
/-! DEFINITION. The assembler syntax of the commands (spec/30_encoding.md R91, R92). Log entry 19. -/

namespace Sys2Proof.Machine

/-- One assembled line: a command, or a raw word, "the only way to write a reserved or illegal word" (R91). -/
inductive AsmItem where
  | instr (i : Instr)
  | word (w : Word)
  deriving DecidableEq, Repr

/-- The assembler gives this item: an instruction whose immediate lies outside 0..65535 is rejected (R92). -/
def AsmItem.legal : AsmItem → Bool
  | .instr i => i.wellFormed
  | .word _ => true

/-- The command word of an assembled line (R91). -/
def AsmItem.toWord : AsmItem → Word
  | .instr i => encode i
  | .word w => w

/-! ### Characters -/

/-- Space, tab and carriage return separate words. -/
def isBlank (c : Char) : Bool := c == ' ' || c == '\t' || c == '\r'

/-- A line without its comment: "A `;` starts a comment that runs to the end of the line" (R91). -/
def stripComment (cs : List Char) : List Char := cs.takeWhile (· != ';')

/-- A token without the blanks around it. -/
def trimBlanks (cs : List Char) : List Char :=
  ((cs.dropWhile isBlank).reverse.dropWhile isBlank).reverse

/-- The pieces of a list between the separators. -/
def splitAtChar (sep : Char) : List Char → List (List Char)
  | [] => [[]]
  | c :: cs =>
    if c = sep then [] :: splitAtChar sep cs
    else
      match splitAtChar sep cs with
      | [] => [[c]]
      | p :: ps => (c :: p) :: ps

/-- The value of a decimal digit. -/
def decDigit (c : Char) : Option Nat :=
  if '0'.toNat ≤ c.toNat ∧ c.toNat ≤ '9'.toNat then some (c.toNat - '0'.toNat) else none

/-- The value of a (lower-case) hexadecimal digit. -/
def hexDigit (c : Char) : Option Nat :=
  if 'a'.toNat ≤ c.toNat ∧ c.toNat ≤ 'f'.toNat then some (c.toNat - 'a'.toNat + 10) else decDigit c

/-- The number that digits of a base spell after the value `acc`, or none if one is no digit. -/
def digitsFrom (base : Nat) (digit : Char → Option Nat) : Nat → List Char → Option Nat
  | acc, [] => some acc
  | acc, c :: cs =>
    match digit c with
    | some v => digitsFrom base digit (acc * base + v) cs
    | none => none

/-- The underscores of a hexadecimal literal stand "between groups of four digits" (spec/00_scope.md R10). -/
def groupsOk (gs : List (List Char)) : Bool :=
  match gs with
  | [] => false
  | [g] => !g.isEmpty
  | g :: rest => !g.isEmpty && decide (g.length ≤ 4) && rest.all (fun r => r.length == 4)

/-- A number: decimal, or 0x and hexadecimal digits (R92, spec/00_scope.md R10). -/
def parseNumber (cs : List Char) : Option Nat :=
  match cs with
  | '0' :: 'x' :: ds =>
    if groupsOk (splitAtChar '_' ds) then digitsFrom 16 hexDigit 0 (ds.filter (· != '_')) else none
  | [] => none
  | ds => digitsFrom 10 decDigit 0 ds

/-! ### Operands (R92) -/

/-- "A descriptor operand is spelled `d0` to `d15`" (R92). -/
def parseDesc (cs : List Char) : Option DescIdx :=
  match cs with
  | ['d', x] => (decDigit x).map (Fin.ofNat 16)
  | ['d', '1', y] => (decDigit y).bind fun v => if v < 6 then some (Fin.ofNat 16 (10 + v)) else none
  | _ => none

/-- "An immediate is spelled `#` followed by a decimal number or a `0x` hexadecimal number" (R92). -/
def parseImm (cs : List Char) : Option Nat :=
  match cs with
  | '#' :: ds => parseNumber ds
  | _ => none

/-- The 32-bit value of `.word` (R91). -/
def parseWord (cs : List Char) : Option Word :=
  (parseNumber cs).bind fun n => if n < 2 ^ 32 then some (BitVec.ofNat 32 n) else none

/-! ### Lines (R91) -/

/-- A command with three descriptor operands. -/
def parseDDD (mk : DescIdx → DescIdx → DescIdx → Instr) (ops : List (List Char)) : Option Instr :=
  match ops with
  | [x, y, z] =>
    match parseDesc x, parseDesc y, parseDesc z with
    | some d, some a, some b => some (mk d a b)
    | _, _, _ => none
  | _ => none

/-- MTRN dD, dA. -/
def parseDD (ops : List (List Char)) : Option Instr :=
  match ops with
  | [x, y] =>
    match parseDesc x, parseDesc y with
    | some d, some a => some (.mtrn d a)
    | _, _ => none
  | _ => none

/-- GSAMP dD, #size. -/
def parseDImm (ops : List (List Char)) : Option Instr :=
  match ops with
  | [x, y] =>
    match parseDesc x, parseImm y with
    | some d, some n => some (.gsamp d n)
    | _, _ => none
  | _ => none

/-- An instruction from its lower-case mnemonic and its operands; a missing or extra operand is rejected (R92). -/
def parseInstr (mn : List Char) (ops : List (List Char)) : Option Instr :=
  if mn = "nop".toList then (if ops = [] then some .nop else none)
  else if mn = "mmul".toList then parseDDD .mmul ops
  else if mn = "madd".toList then parseDDD .madd ops
  else if mn = "mtrn".toList then parseDD ops
  else if mn = "gsamp".toList then parseDImm ops
  else if mn = "decb".toList then parseDDD .decb ops
  else none

/-- An assembled item from a lower-case mnemonic and operands. An instruction whose immediate lies outside
0..65535 is rejected (R92). -/
def parseItem (mn : List Char) (ops : List (List Char)) : Option AsmItem :=
  if mn = ".word".toList then
    match ops with
    | [x] => (parseWord x).map .word
    | _ => none
  else (parseInstr mn ops).bind fun i => if (AsmItem.instr i).legal then some (.instr i) else none

/-- One line: no item for a blank or comment-only line, else one item; none if the line is rejected. DESIGN CHOICE (log
entry 19): R91 makes mnemonics and register names case-insensitive and says nothing of the rest; the whole line is
lower-cased here, so that `.WORD`, a `0X` prefix and capital hexadecimal digits are accepted too. -/
def asmChars (line : List Char) : Option (List AsmItem) :=
  let cs := trimBlanks ((stripComment line).map Char.toLower)
  if cs = [] then some []
  else
    let rest := trimBlanks (cs.dropWhile (fun c => !isBlank c))
    let ops := if rest = [] then [] else (splitAtChar ',' rest).map trimBlanks
    (parseItem (cs.takeWhile (fun c => !isBlank c)) ops).map fun it => [it]

/-- Assemble one line of text (R91). -/
def asmLine (line : String) : Option (List AsmItem) := asmChars line.toList

end Sys2Proof.Machine
end

