-- ==== Sys2Proof/Machine/HostNotation.lean ====
section
/-! DEFINITION. The host notation and its pseudo-instructions (spec/30_encoding.md R94 to R98). It is not executed by
the block: it is one way to produce the host's accesses. Host temporaries are host state (R94). Log entry 20. -/

namespace Sys2Proof.Machine

/-! ### Lines (R94) -/

/-- A register or window word named by a host line (R94). -/
inductive HostReg where
  | id
  | ctrl
  | status
  | cmd
  | q
  | sigma
  | descBase (k : DescIdx)
  | descShape (k : DescIdx)
  | mem (i : Nat)
  deriving DecidableEq, Repr

/-- The byte offset of a register or window word (spec/10_state.md R25). -/
def HostReg.offset : HostReg → Nat
  | .id => 0x000
  | .ctrl => 0x004
  | .status => 0x008
  | .cmd => 0x00C
  | .q => 0x010
  | .sigma => 0x014
  | .descBase k => 0x100 + 8 * k.val
  | .descShape k => 0x104 + 8 * k.val
  | .mem i => Config.windowBase + 4 * i

/-- What one line of a host program does (R94). -/
inductive HostAct where
  /-- WR reg, value. -/
  | wr (r : HostReg) (w : Word)
  /-- RD reg -> tN. -/
  | rd (r : HostReg) (t : Nat)
  /-- CMD assembly. -/
  | cmd (c : AsmItem)
  /-- BNZ tN, mask, label. -/
  | bnz (t : Nat) (mask : Word) (l : Nat)
  /-- HALT. -/
  | halt
  deriving DecidableEq, Repr

/-- One line of a host program: one host step, and the label that marks it, if any (R94). -/
structure HostLine where
  label : Option Nat
  act : HostAct
  deriving DecidableEq, Repr

/-- A line without a label. -/
def HostAct.line (a : HostAct) : HostLine := { label := none, act := a }

/-- A host program. -/
abbrev HostProgram := List HostLine

/-! ### The host -/

/-- The host's own state: its current line and its temporaries (R94). -/
structure HostSide where
  line : Nat
  temps : List (Nat × Word)
  deriving DecidableEq, Repr

/-- The value of a host temporary. -/
def HostSide.temp (h : HostSide) (t : Nat) : Option Word := (h.temps.find? (fun p => p.1 == t)).map (·.2)

/-- The host's next line, with one temporary written if a read was answered. -/
def HostSide.advance (h : HostSide) (t : Nat) (v : Option Word) : HostSide :=
  { line := h.line + 1
    temps := match v with
      | some w => (t, w) :: h.temps.filter (fun p => p.1 != t)
      | none => h.temps }

/-- An aligned full-word access to a register (R94, spec/20_memory.md R62). None for `MEM[i]` with i ≥ 2^20, which has
no offset in the aperture of 2^23 bytes (R66). -/
def HostReg.access (r : HostReg) (dir : BusDir) : Option Access :=
  if r.offset < 2 ^ 23 then some { off := BitVec.ofNat 23 r.offset, be := 0b1111#4, dir := dir } else none

/-- The outcome of a turn of a host and the block. -/
abbrev HostOutcome := Host.Outcome (HostSide × State) Fault Refusal

/-- A host with the outcome of its access. -/
def withHost (f : State → HostSide) : StepOutcome → HostOutcome
  | .next s => .next (f s, s)
  | .fault r => .fault r
  | .refused r => .refused r

/-- The host jumps to the line that a label marks (R94). DESIGN CHOICE (log entry 20): where one label marks several
lines it jumps to the first of them, and where the label marks no line it stays where it is. -/
def HostSide.jump (h : HostSide) (p : HostProgram) (l : Nat) : HostSide :=
  match p.findIdx? (fun x => x.label == some l) with
  | some n => { h with line := n }
  | none => h

/-- The host plays its access to a register and goes on. DESIGN CHOICE (log entry 20): an access to `MEM[i]` with
i ≥ 2^20, which names no word of the aperture, is no line of the notation: the host stays at it and the block sees
nothing. -/
def HostReg.play (r : HostReg) (dir : BusDir) (h : HostSide) (after : State → HostSide) (s : State) : HostOutcome :=
  match r.access dir with
  | none => .next (h, s)
  | some a => withHost after (hostAccess a s)

/-- The host's turn: one line (R94). A CMD line that the assembler rejects (R92) is no line of the notation either, and
the host stays at it (DESIGN CHOICE, log entry 20). HALT, and the end of the program, leave everything as it is
(spec/70_reset_and_hazards.md R188). -/
def hostTurn (p : HostProgram) (h : HostSide) (s : State) : HostOutcome :=
  match (p[h.line]?).map HostLine.act with
  | none => .next (h, s)
  | some .halt => .next (h, s)
  | some (.wr r w) => r.play (.write w) h (fun _ => h.advance 0 none) s
  | some (.rd r t) => r.play .read h (fun s' => h.advance t s'.rdata) s
  | some (.cmd c) =>
    if c.legal then HostReg.cmd.play (.write c.toWord) h (fun _ => h.advance 0 none) s else .next (h, s)
  | some (.bnz t mask l) =>
    match h.temp t with
    | none => .next (h, s)
    | some v => .next (if v &&& mask = 0#32 then h.advance 0 none else h.jump p l, s)

/-- A turn of the system of host program and block: the host's line, or a turn of the block's other agents. -/
def systemTurn (p : HostProgram) (hostMoves : Bool) (t : Turn) (h : HostSide) (s : State) : HostOutcome :=
  if hostMoves then hostTurn p h s else withHost (fun _ => h) (takeTurn t s)

/-! ### Pseudo-instructions (R95 to R98); `l` is the first of the fresh labels they use -/

/-- WR reg, value, for a value that 32 bits hold (R94: WR is one 32-bit write). -/
def hostWr (r : HostReg) (n : Nat) : Option HostLine :=
  if n < 2 ^ 32 then some (HostAct.wr r (BitVec.ofNat 32 n)).line else none

/-- SETD dk, base, rows, cols (R95). DESIGN CHOICE (log entry 20): R95 gives no range for the operands; an expansion
whose base, or whose value cols·0x1_0000 + rows, does not fit the 32 bits of its WR is rejected. -/
def hostSetd (k : DescIdx) (base rows cols : Nat) : Option HostProgram :=
  match hostWr (.descBase k) base, hostWr (.descShape k) (cols * 0x10000 + rows) with
  | some x, some y => some [x, y]
  | _, _ => none

/-- WAIT (R95). It leaves t0 holding the final STATUS value. -/
def hostWait (l : Nat) : HostProgram :=
  [{ label := some l, act := .rd .status 0 }, (HostAct.bnz 0 0x1#32 l).line]

/-- A command and the WAIT after it. -/
def cmdWait (i : Instr) (l : Nat) : HostProgram := (HostAct.cmd (.instr i)).line :: hostWait l

/-- DOT dD, dX, dY, dT: dD = Xᵗ·Y (R95). -/
def hostDot (l : Nat) (d x y t : DescIdx) : HostProgram :=
  cmdWait (.mtrn t x) l ++ cmdWait (.mmul d t y) (l + 1)

/-- DECRYPT dBit, dV, dU, dS, dT1, dT2 (R96). -/
def hostDecrypt (l : Nat) (bit v u s t1 t2 : DescIdx) : HostProgram :=
  cmdWait (.mtrn t1 s) l ++ cmdWait (.mmul t2 t1 u) (l + 1) ++ cmdWait (.decb bit v t2) (l + 2)

/-- KEYGEN dA, dS, dE, dAS, dB, m: the matrix part of key generation (R97). The assembler rejects `GSAMP dE, #m` with m
outside 0..65535 (R92), and the expansion with it. -/
def hostKeygen (l : Nat) (a s e as b : DescIdx) (m : Nat) : Option HostProgram :=
  if (AsmItem.instr (.gsamp e m)).legal then
    some (cmdWait (.gsamp e m) l ++ cmdWait (.mmul as a s) (l + 1) ++ cmdWait (.madd b as e) (l + 2))
  else none

/-- ENCRYPT bit, dA, dB, dR, dT1, dU, dT2, dV0, dH, dV: the commands; the host has checked the bit and written r and
H = bit·⌊q/2⌋ itself (R98). -/
def hostEncrypt (l : Nat) (a b r t1 u t2 v0 h v : DescIdx) : HostProgram :=
  cmdWait (.mtrn t1 a) l ++ cmdWait (.mmul u t1 r) (l + 1) ++ cmdWait (.mtrn t2 b) (l + 2)
    ++ cmdWait (.mmul v0 t2 r) (l + 3) ++ cmdWait (.madd v v0 h) (l + 4)

end Sys2Proof.Machine
end

