-- ==== Sys2Proof/Safety.lean ====
section
/-! DEFINITION. What the claims about the machine speak of: the invariant of the block, and the frame and the result
of a completed command. -/

namespace Sys2Proof.Machine

/-! ### The invariant -/

/-- The draws that the command in flight may hold: none, but for a GSAMP whose checks pass, which holds at most
`size` (spec/42_gaussian_sampler.md R131, spec/40_command_protocol.md R102). -/
def drawsWithin (fl : Inflight) (memWords : Nat) : Prop :=
  match decode fl.word with
  | .ok (.gsamp d size) =>
    if checks (.gsamp d size) fl memWords = .ok then fl.draws.length ≤ size else fl.draws = []
  | _ => fl.draws = []

/-- INFLIGHT equals the current registers (spec/10_state.md R49, derived from R35). -/
def snapshotCurrent (s : State) (fl : Inflight) : Prop :=
  fl.word = s.cmdLast ∧ fl.dsnap = s.descs ∧ fl.q = s.q ∧ fl.sigma = s.sigma

/-- Every register is at its value in the reset table of spec/10_state.md R53, each written out, and no command is in
flight. -/
def registersReset (s : State) : Prop :=
  s.ie = false ∧ s.q = 0#16 ∧ s.sigma = 0#16 ∧
  s.status = { busy := false, done := false, cmdovr := false, accerr := false, err := 0#4 } ∧ s.cmdLast = 0#32 ∧
  (∀ k : DescIdx, s.descs[k] = { base := 0#20, rows := 0#16, cols := 0#16 }) ∧ s.inflight = none

/-- What holds of every state of the block: at reset, and kept by every step. -/
structure State.Inv (s : State) : Prop where
  /-- INFLIGHT holds a command exactly while BUSY = 1 (spec/10_state.md R33, R49). -/
  busy_inflight : s.status.busy = s.inflight.isSome
  /-- DONE and BUSY are never both 1 (R34). -/
  busy_done : ¬ (s.status.busy = true ∧ s.status.done = true)
  /-- ERR never holds 6 to 15 (spec/60_exceptions.md R152). -/
  err_le : s.status.err.toNat ≤ 5
  /-- ERR is 0 from issue to completion (R38). -/
  busy_err : s.status.busy = true → s.status.err = 0#4
  /-- The snapshot equals the current values (R49). -/
  snapshot : ∀ fl, s.inflight = some fl → snapshotCurrent s fl
  /-- No draw is taken beyond what the command needs (spec/42_gaussian_sampler.md R131). -/
  draws : ∀ fl, s.inflight = some fl → drawsWithin fl s.memWords
  /-- Memory is in canonical form. -/
  mem_wf : s.mem.wf
  /-- Only elements of MEM are written (spec/20_memory.md R59). -/
  mem_range : ∀ p ∈ s.mem, p.1 < s.memWords
  /-- While rst_n = 0 the block is held in the reset state (spec/70_reset_and_hazards.md R171, R172). -/
  held : s.rstN = false → registersReset s ∧ s.mem = []

/-! ### Host accesses and reset -/

/-- One aligned full-word read at a byte offset (spec/20_memory.md R62). -/
def wordRead (off : Nat) : Access := { off := BitVec.ofNat 23 off, be := 0b1111#4, dir := .read }

/-- One aligned full-word write at a byte offset (spec/20_memory.md R62). -/
def wordWrite (off : Nat) (w : Word) : Access := { off := BitVec.ofNat 23 off, be := 0b1111#4, dir := .write w }

/-- A soft reset now would leave this element unspecified: it lies in the destination region of the command in
flight, whose checks pass (spec/70_reset_and_hazards.md R174). -/
def InAbortedRegion (s : State) (x : Nat) : Prop :=
  ∃ fl i d r c, s.status.busy = true ∧ s.inflight = some fl ∧ decode fl.word = .ok i ∧
    checks i fl s.memWords = .ok ∧ resultShape i fl = some (d, r, c) ∧
    (fl.snap d).base.toNat ≤ x ∧ x < (fl.snap d).base.toNat + r * c

/-! ### Completion of a command -/

/-- Everything that no command writes: ID, CTRL.IE, Q, SIGMA, CMD_LAST, CMDOVR, ACCERR (spec/40_command_protocol.md
R103), and the parameter and the ports. -/
structure CommandFrame (s t : State) : Prop where
  idReg : t.idReg = s.idReg
  ie : t.ie = s.ie
  q : t.q = s.q
  sigma : t.sigma = s.sigma
  cmdLast : t.cmdLast = s.cmdLast
  cmdovr : t.status.cmdovr = s.status.cmdovr
  accerr : t.status.accerr = s.status.accerr
  memWords : t.memWords = s.memWords
  rstN : t.rstN = s.rstN
  entropy : t.entropy = s.entropy
  sched : t.sched = s.sched
  rdata : t.rdata = s.rdata
  freeCtr : t.freeCtr = s.freeCtr

/-- The state after a command that succeeded with an r×c result matrix in the region of `d` from index `base` on
(spec/40_command_protocol.md R103, R112): entry (i, j) at base + i·c + j, every other element unchanged, the shape
written to D[d], its BASE and every other descriptor unchanged, BUSY <- 0, DONE <- 1, ERR <- 0. -/
structure CompletedWith (s t : State) (d : DescIdx) (base r c : Nat) (entry : Nat → Nat → Elem) : Prop where
  frame : CommandFrame s t
  busy : t.status.busy = false
  done : t.status.done = true
  err : t.status.err = 0#4
  idle : t.inflight = none
  result : ∀ i j, i < r → j < c → t.mem.read (base + i * c + j) = some (entry i j)
  outside : ∀ x, x < base ∨ base + r * c ≤ x → t.mem.read x = s.mem.read x
  shape : t.descs[d] = { base := s.descs[d].base, rows := BitVec.ofNat 16 r, cols := BitVec.ofNat 16 c }
  others : ∀ k : DescIdx, k ≠ d → t.descs[k] = s.descs[k]

/-- The state after a command that ended with an error code: nothing but BUSY, DONE and ERR has changed, and nothing
is in flight any more (spec/40_command_protocol.md R103, R106). -/
def endedWith (s : State) (code : BitVec 4) : State :=
  { s with status := { s.status with busy := false, done := true, err := code }, inflight := none }

/-- The entries (i, j), i < r, j < c, of the matrix M are written and hold `x` (spec/20_memory.md R67, R70). -/
def Holds (M : Desc) (m : Memory) (r c : Nat) (x : Nat → Nat → Elem) : Prop :=
  ∀ i j, i < r → j < c → m.read (M.base.toNat + i * M.cols.toNat + j) = some (x i j)

/-- The accumulator of MMUL as a 64-bit register that wraps (spec/10_state.md R48), after n products. -/
def mmulAcc64 (x y : Nat → Elem) : Nat → BitVec 64
  | 0 => 0#64
  | n + 1 => mmulAcc64 x y n + (x n).setWidth 64 * (y n).setWidth 64

/-- The region of M lies in operand memory: BASE + ROWS·COLS ≤ MEM_WORDS (spec/20_memory.md R68). -/
def InMemory (M : Desc) (memWords : Nat) : Prop :=
  M.base.toNat + M.rows.toNat * M.cols.toNat ≤ memWords

end Sys2Proof.Machine
end

