-- ==== Sys2Proof/Certificates/Slice0/Obligations.lean ====
section
/-! DEFINITION. The statements for the provers. Each docstring cites the rules of spec/ it formalises. -/

open Sys2Proof Sys2Proof.Machine

/-! ### Notation (spec/00_scope.md) -/

/-- R12: floormod(x, q), for q ≥ 1, is the unique r with 0 ≤ r < q and x − r divisible by q, that is
r = x − q·⌊x/q⌋. -/
def Obligations.FloormodIsCanonicalResidue : Prop :=
  ∀ (x : Int) (q : Nat), 1 ≤ q →
    floormod x q < q ∧ (q : Int) ∣ x - floormod x q ∧ (floormod x q : Int) = x - q * x.fdiv q ∧
    ∀ r : Nat, r < q → (q : Int) ∣ x - r → r = floormod x q

/-! ### Reset (spec/10_state.md R53, spec/70_reset_and_hazards.md) -/

/-- R53: the reset table, after a power-on reset and after a soft reset, and of the block of any size that comes out
of power-on. ID is its constant and irq is 0. After power-on every element is unwritten. After a soft reset memory is
unchanged, except for the destination region of an aborted command. -/
def Obligations.ResetTable : Prop :=
  (∀ n : Nat, registersReset (State.powerOn n) ∧ (State.powerOn n).irq = false ∧
    (State.powerOn n).idReg.value = 0x5A510100#32 ∧ ∀ x, (State.powerOn n).mem.read x = none) ∧
  ∀ s : State,
    (registersReset s.powerOnReset ∧ s.powerOnReset.irq = false ∧ s.powerOnReset.idReg.value = 0x5A510100#32 ∧
      ∀ x, s.powerOnReset.mem.read x = none) ∧
    (registersReset s.softReset ∧ s.softReset.irq = false ∧ s.softReset.idReg.value = 0x5A510100#32 ∧
      ∀ x, ¬ InAbortedRegion s x → s.softReset.mem.read x = s.mem.read x)

/-- R28, R173, R174: a CTRL write with bit 1 = 1 is a soft reset, also while BUSY and whatever its other bits are.
Every register is reset (IE ends at 0, DONE and ERR are 0, nothing is in flight), ent_ready and irq are 0; every
element of the destination region of an aborted command whose checks pass counts as written, with an unspecified value;
every other element keeps its value. The model's own choices: the unspecified values are values of
Config.unspecifiedElem (log entry 7), and the offered draws stay offered (log entry 4). -/
def Obligations.SoftResetAbortsCommand : Prop :=
  ∀ (s : State) (w : Word), s.rstN = true → w.getLsbD 1 = true →
    ∃ t, hostAccess (wordWrite 0x004 w) s = .next t ∧ registersReset t ∧ t.irq = false ∧ t.entReady = false ∧
      (∀ x, InAbortedRegion s x → ∃ k, t.mem.read x = some (Config.unspecifiedElem k)) ∧
      (∀ x, ¬ InAbortedRegion s x → t.mem.read x = s.mem.read x) ∧
      t.memWords = s.memWords ∧ t.rstN = true ∧ t.entropy = s.entropy ∧ t.sched = s.sched

/-- R171, R172: when rst_n falls the block takes its reset state, with every element unwritten, and a command in
flight is abandoned with none of its effects; while rst_n = 0 ent_ready is 0, the executor has no step and a host access
is refused; while rst_n = 0 in a state that meets the invariant every register is at its reset value, every element is
unwritten and irq is 0; when rst_n rises the block is in the reset state and idle. The model's own choices: the turns of
the schedule (log entry 2), that the offered draws stay offered (log entry 4), and the pin as turns (log entry 10). -/
def Obligations.PowerOnResetHoldsBlock : Prop :=
  (∀ (s : State) (rest : List Turn), s.sched = .rstN false :: rest →
    ∃ t, step s = .next t ∧ t.rstN = false ∧ registersReset t ∧ (∀ x, t.mem.read x = none) ∧ t.irq = false ∧
      t.entReady = false ∧ t.sched = rest ∧ t.memWords = s.memWords ∧ t.entropy = s.entropy) ∧
  (∀ (s : State), s.rstN = false →
    (∀ a, hostAccess a s = .refused .accessDuringReset) ∧ executorTurn s = .next s ∧ s.entReady = false ∧
    (s.Inv → registersReset s ∧ (∀ x, s.mem.read x = none) ∧ s.irq = false)) ∧
  (∀ (s : State) (rest : List Turn), s.rstN = false → s.sched = .rstN true :: rest →
    ∃ t, step s = .next t ∧ t.rstN = true ∧ registersReset t ∧ (∀ x, t.mem.read x = none) ∧ t.sched = rest)

/-! ### Registers (spec/10_state.md) -/

/-- R26: ID reads the constant 0x5A51_0100, also while BUSY; a write to ID is ignored and sets no flag. -/
def Obligations.IdReadsConstant : Prop :=
  ∀ s : State, s.rstN = true →
    hostAccess (wordRead 0x000) s = .next { s with rdata := some 0x5A510100#32 } ∧
    (∀ w, hostAccess (wordWrite 0x000 w) s = .next { s with rdata := none }) ∧
    State.reset.idReg.value = 0x5A510100#32

/-- R27, R29: IE is bit 0 of CTRL, read-write, also while BUSY; irq follows DONE exactly when IE = 1; every other bit
of CTRL reads 0 and a write to it (bit 1, SRST, being 0) is ignored; IE resets to 0. -/
def Obligations.CtrlHoldsInterruptEnable : Prop :=
  (∀ n, (State.powerOn n).ie = false) ∧
  (∀ s : State, s.irq = (s.ie && s.status.done)) ∧
  ∀ s : State, s.rstN = true →
    (∀ w : Word, w.getLsbD 1 = false →
      hostAccess (wordWrite 0x004 w) s = .next { s with ie := w.getLsbD 0, rdata := none }) ∧
    ∃ v : Word, hostAccess (wordRead 0x004) s = .next { s with rdata := some v } ∧ v.getLsbD 0 = s.ie ∧
      ∀ n, 1 ≤ n → v.getLsbD n = false

/-- R30, R31, R46: while BUSY = 0, Q and SIGMA take bits [15:0] of what is written and read back with bits [31:16] 0. -/
def Obligations.ParameterRegistersStoreLowHalf : Prop :=
  ∀ s : State, s.rstN = true → s.status.busy = false →
    (∀ w : Word, hostAccess (wordWrite 0x010 w) s = .next { s with q := BitVec.ofNat 16 w.toNat, rdata := none }) ∧
    (∀ w : Word, hostAccess (wordWrite 0x014 w) s = .next { s with sigma := BitVec.ofNat 16 w.toNat, rdata := none }) ∧
    hostAccess (wordRead 0x010) s = .next { s with rdata := some (BitVec.ofNat 32 s.q.toNat) } ∧
    hostAccess (wordRead 0x014) s = .next { s with rdata := some (BitVec.ofNat 32 s.sigma.toNat) }

/-- R32: STATUS reads, at any time, as BUSY in bit 0, DONE in bit 1, CMDOVR in bit 2, ACCERR in bit 3, ERR in bits
7:4, and 0 in bits 31:8; every field resets to 0. -/
def Obligations.StatusReadsItsFields : Prop :=
  (∀ n, (State.powerOn n).status.toWord = 0#32 ∧
    (State.powerOn n).status = { busy := false, done := false, cmdovr := false, accerr := false, err := 0#4 }) ∧
  ∀ s : State, s.rstN = true →
    ∃ v : Word, hostAccess (wordRead 0x008) s = .next { s with rdata := some v } ∧
      v.getLsbD 0 = s.status.busy ∧ v.getLsbD 1 = s.status.done ∧ v.getLsbD 2 = s.status.cmdovr ∧
      v.getLsbD 3 = s.status.accerr ∧ (∀ n, n < 4 → v.getLsbD (4 + n) = s.status.err.getLsbD n) ∧
      ∀ n, 8 ≤ n → v.getLsbD n = false

/-- R39: a write of w to STATUS, at any time, clears DONE, CMDOVR and ACCERR where w[1], w[2] and w[3] are 1, and
leaves every other field, BUSY and ERR among them, unchanged. -/
def Obligations.StatusWriteClearsFlags : Prop :=
  ∀ (s : State) (w : Word), s.rstN = true →
    ∃ t, hostAccess (wordWrite 0x008 w) s = .next t ∧ t = { s with status := t.status, rdata := none } ∧
      t.status.done = (if w.getLsbD 1 then false else s.status.done) ∧
      t.status.cmdovr = (if w.getLsbD 2 then false else s.status.cmdovr) ∧
      t.status.accerr = (if w.getLsbD 3 then false else s.status.accerr) ∧
      t.status.busy = s.status.busy ∧ t.status.err = s.status.err

/-- R40, R100: a write of w to CMD while BUSY = 0 issues w, whatever it encodes, as one atomic event; CMD reads back
CMD_LAST, at any time and with no side effect. -/
def Obligations.CmdWriteIssuesCommand : Prop :=
  (∀ (s : State) (w : Word), s.rstN = true → s.status.busy = false →
    hostAccess (wordWrite 0x00C w) s = .next
      { s with
        cmdLast := w
        status := { s.status with done := false, err := 0#4, busy := true }
        inflight := some { word := w, dsnap := s.descs, q := s.q, sigma := s.sigma, draws := [] }
        rdata := none }) ∧
  (∀ s : State, s.rstN = true → hostAccess (wordRead 0x00C) s = .next { s with rdata := some s.cmdLast }) ∧
  ∀ n, (State.powerOn n).cmdLast = 0#32

/-- R178: a CMD write while BUSY = 1 is dropped. It sets CMDOVR and changes nothing else; ACCERR is not set. -/
def Obligations.CmdWriteWhileBusyDropped : Prop :=
  ∀ (s : State) (w : Word), s.rstN = true → s.status.busy = true →
    hostAccess (wordWrite 0x00C w) s = .next { s with status := { s.status with cmdovr := true }, rdata := none }

/-- R42, R43: while BUSY = 0, DESCk_BASE holds BASE in bits [19:0] and discards bits [31:20], which read 0;
DESCk_SHAPE holds ROWS in bits [15:0] and COLS in bits [31:16]; a write changes that descriptor only. Both reset to 0. -/
def Obligations.DescriptorRegisters : Prop :=
  (∀ (n : Nat) (k : DescIdx), (State.powerOn n).descs[k] = { base := 0#20, rows := 0#16, cols := 0#16 }) ∧
  ∀ (s : State) (k : DescIdx), s.rstN = true → s.status.busy = false →
    (∀ w : Word, hostAccess (wordWrite (0x100 + 8 * k.val) w) s = .next
      { s with descs := s.descs.set k { s.descs[k] with base := BitVec.ofNat 20 w.toNat }, rdata := none }) ∧
    (∀ w : Word, hostAccess (wordWrite (0x104 + 8 * k.val) w) s = .next
      { s with
        descs := s.descs.set k { s.descs[k] with
          rows := BitVec.ofNat 16 w.toNat, cols := BitVec.ofNat 16 (w.toNat / 65536) }
        rdata := none }) ∧
    hostAccess (wordRead (0x100 + 8 * k.val)) s =
      .next { s with rdata := some (BitVec.ofNat 32 s.descs[k].base.toNat) } ∧
    hostAccess (wordRead (0x104 + 8 * k.val)) s =
      .next { s with rdata := some (BitVec.ofNat 32 (s.descs[k].cols.toNat * 65536 + s.descs[k].rows.toNat)) }

/-- R46, for whole offsets: an aligned full-word access to a reserved or unmapped offset reads 0; a write there is
ignored and sets no flag; whether or not BUSY = 1. -/
def Obligations.ReservedOffsetsReadZero : Prop :=
  ∀ (s : State) (off : Nat), s.rstN = true → off % 4 = 0 →
    (0x018 ≤ off ∧ off < 0x100) ∨ (0x180 ≤ off ∧ off < 0x400000) →
    hostAccess (wordRead off) s = .next { s with rdata := some 0#32 } ∧
    ∀ w, hostAccess (wordWrite off w) s = .next { s with rdata := none }

/-! ### Access rules (spec/20_memory.md, spec/70_reset_and_hazards.md) -/

/-- R62: any access that is not an aligned full word is rejected, whatever its offset and whether or not BUSY = 1: a
rejected write changes nothing, a rejected read returns 0, both set ACCERR. -/
def Obligations.UnalignedAccessRejected : Prop :=
  ∀ (s : State) (off : BitVec 23) (be : BitVec 4), s.rstN = true → off.toNat % 4 ≠ 0 ∨ be ≠ 0b1111#4 →
    hostAccess { off := off, be := be, dir := .read } s =
      .next { s with status := { s.status with accerr := true }, rdata := some 0#32 } ∧
    ∀ w, hostAccess { off := off, be := be, dir := .write w } s =
      .next { s with status := { s.status with accerr := true }, rdata := none }

/-- R179: while BUSY = 1 every read and write of Q, SIGMA, DESCk_BASE, DESCk_SHAPE and the memory window is rejected;
ID, CTRL, STATUS, CMD and the unmapped offsets remain accessible. -/
def Obligations.BusyBlocksOperandAccess : Prop :=
  ∀ (s : State) (off : Nat), s.rstN = true → s.status.busy = true → off % 4 = 0 → off < 2 ^ 23 →
    ((off = 0x010 ∨ off = 0x014 ∨ (0x100 ≤ off ∧ off < 0x180) ∨ 0x400000 ≤ off) →
      hostAccess (wordRead off) s =
        .next { s with status := { s.status with accerr := true }, rdata := some 0#32 } ∧
      ∀ w, hostAccess (wordWrite off w) s =
        .next { s with status := { s.status with accerr := true }, rdata := none }) ∧
    ((off < 0x010 ∨ (0x018 ≤ off ∧ off < 0x100) ∨ (0x180 ≤ off ∧ off < 0x400000)) →
      (∃ v, hostAccess (wordRead off) s = .next { s with rdata := some v }) ∧
      ∀ w, ∃ t, hostAccess (wordWrite off w) s = .next t ∧ (s.status.accerr = false → t.status.accerr = false))

/-- R69: an accepted write to window word i stores bits [15:0], whatever they are, and changes no other element; an
accepted read returns the element zero-extended. -/
def Obligations.WindowStoresElement : Prop :=
  ∀ (s : State) (i : Nat), s.rstN = true → s.status.busy = false → i < s.memWords → i < 2 ^ 20 →
    (∀ w : Word, ∃ t, hostAccess (wordWrite (0x400000 + 4 * i) w) s = .next t ∧
      t = { s with mem := t.mem, rdata := none } ∧
      t.mem.read i = some (BitVec.ofNat 16 w.toNat) ∧ ∀ x, x ≠ i → t.mem.read x = s.mem.read x) ∧
    ∀ v : Elem, s.mem.read i = some v →
      hostAccess (wordRead (0x400000 + 4 * i)) s = .next { s with rdata := some (BitVec.ofNat 32 v.toNat) }

/-- R37, R66: an access to a window index at or beyond MEM_WORDS is rejected, whether or not BUSY = 1. -/
def Obligations.WindowBeyondMemoryRejected : Prop :=
  ∀ (s : State) (i : Nat), s.rstN = true → s.memWords ≤ i → i < 2 ^ 20 →
    hostAccess (wordRead (0x400000 + 4 * i)) s =
      .next { s with status := { s.status with accerr := true }, rdata := some 0#32 } ∧
    ∀ w, hostAccess (wordWrite (0x400000 + 4 * i) w) s =
      .next { s with status := { s.status with accerr := true }, rdata := none }

/-- R70 (the model's faults): a host read of an unwritten element is a fault; a command whose checks pass and whose
rule reads an unwritten element is a fault. -/
def Obligations.UnwrittenReadFaults : Prop :=
  (∀ (s : State) (i : Nat), s.rstN = true → s.status.busy = false → i < s.memWords → i < 2 ^ 20 →
    s.mem.read i = none → hostAccess (wordRead (0x400000 + 4 * i)) s = .fault .hostReadUnwritten) ∧
  ∀ (s : State) (fl : Inflight) (d a b : DescIdx) (i j : Nat), s.inflight = some fl →
    (checks (.mmul d a b) fl s.memWords = .ok → ∀ k, i < (fl.snap a).rows.toNat → j < (fl.snap b).cols.toNat →
      k < (fl.snap a).cols.toNat →
      s.mem.read ((fl.snap a).base.toNat + i * (fl.snap a).cols.toNat + k) = none ∨
        s.mem.read ((fl.snap b).base.toNat + k * (fl.snap b).cols.toNat + j) = none →
      exec (.mmul d a b) s = .fault .commandReadUnwritten) ∧
    (i < (fl.snap a).rows.toNat → j < (fl.snap a).cols.toNat →
      (s.mem.read ((fl.snap a).base.toNat + i * (fl.snap a).cols.toNat + j) = none →
        checks (.mtrn d a) fl s.memWords = .ok → exec (.mtrn d a) s = .fault .commandReadUnwritten) ∧
      (s.mem.read ((fl.snap a).base.toNat + i * (fl.snap a).cols.toNat + j) = none ∨
        s.mem.read ((fl.snap b).base.toNat + i * (fl.snap b).cols.toNat + j) = none →
        (checks (.madd d a b) fl s.memWords = .ok → exec (.madd d a b) s = .fault .commandReadUnwritten) ∧
        (checks (.decb d a b) fl s.memWords = .ok → exec (.decb d a b) s = .fault .commandReadUnwritten)))

/-- R65, R62: an accepted read (an aligned full word that the block does not reject) changes nothing but the answered
read data, so ACCERR stays; a rejected read changes ACCERR besides, which becomes 1 (log entry 11); the same read again
answers the same. -/
def Obligations.ReadsHaveNoSideEffect : Prop :=
  ∀ (a : Access) (s t : State), a.dir = .read → hostAccess a s = .next t →
    (a.isAlignedWord = true → s.rejects (targetOf a.off.toNat) = false →
      t = { s with rdata := t.rdata } ∧ t.status.accerr = s.status.accerr) ∧
    (a.isAlignedWord = false ∨ s.rejects (targetOf a.off.toNat) = true → t.status.accerr = true) ∧
    (∃ v, t = { s with status := { s.status with accerr := t.status.accerr }, rdata := some v }) ∧
    ∃ u, hostAccess a t = .next u ∧ u.rdata = t.rdata

/-! ### Encoding (spec/30_encoding.md) -/

/-- R82, R86, R87: decoding the word of any well-formed command gives that command back, every operand at every value
its field admits. -/
def Obligations.DecodeOfEncode : Prop :=
  ∀ i : Instr, i.wellFormed = true → decode (encode i) = .ok i

/-- R86, R87: a word that decodes is the word of a well-formed command and of no other: no bit is dropped. -/
def Obligations.EncodeOfDecode : Prop :=
  ∀ (w : Word) (i : Instr), decode w = .ok i → i.wellFormed = true ∧ encode i = w

/-- R86: a word decodes exactly when it is in a row of the match and mask table, to a command of that row, and no word
is in two rows. -/
def Obligations.DecodeFollowsMatchTable : Prop :=
  (∀ w : Word, (∃ i, decode w = .ok i) ↔ ∃ r ∈ opcodeRows, r.covers w = true) ∧
  (∀ (w : Word) (i : Instr), decode w = .ok i → i.row ∈ opcodeRows ∧ i.row.covers w = true) ∧
  ∀ (w : Word) (r r' : OpcodeRow), r ∈ opcodeRows → r' ∈ opcodeRows → r.covers w = true → r'.covers w = true → r = r'

/-- R88, R89, R108: a reserved opcode, or a nonzero must-be-zero field of a defined opcode, is ILLEGAL; the command
completes with code 2 and has no other effect, in an executor's turn that the schedule names or that an exhausted
schedule gives (the schedule is the model's, log entry 2). -/
def Obligations.IllegalWordCompletesWithCode2 : Prop :=
  (∀ w : Word, 6 ≤ w.toNat / 2 ^ 28 → decode w = .error .reservedOpcode) ∧
  (∀ w : Word,
    (w.toNat / 2 ^ 28 = 0 ∧ w ≠ 0#32) ∨
    ((w.toNat / 2 ^ 28 = 1 ∨ w.toNat / 2 ^ 28 = 2 ∨ w.toNat / 2 ^ 28 = 5) ∧ w.toNat / 2 ^ 12 % 2 ^ 16 ≠ 0) ∨
    (w.toNat / 2 ^ 28 = 3 ∧ (w.toNat / 2 ^ 12 % 2 ^ 16 ≠ 0 ∨ w.toNat % 2 ^ 4 ≠ 0)) ∨
    (w.toNat / 2 ^ 28 = 4 ∧ w.toNat % 2 ^ 8 ≠ 0) → decode w = .error .mustBeZero) ∧
  ∀ (s : State) (fl : Inflight) (e : Illegal), s.rstN = true → s.status.busy = true → s.inflight = some fl →
    decode fl.word = .error e →
    (s.sched = [] → step s = .next (endedWith s 2#4)) ∧
    ∀ rest, s.sched = .executor :: rest → step s = .next (endedWith { s with sched := rest } 2#4)

/-- R93: the worked encodings, assembled and decoded. -/
def Obligations.WorkedEncodings : Prop :=
  asmLine "MMUL d2, d0, d1" = some [.instr (.mmul 2 0 1)] ∧ encode (.mmul 2 0 1) = 0x10000201#32 ∧
  asmLine "MADD d1, d2, d3" = some [.instr (.madd 1 2 3)] ∧ encode (.madd 1 2 3) = 0x20000123#32 ∧
  asmLine "MTRN d4, d1" = some [.instr (.mtrn 4 1)] ∧ encode (.mtrn 4 1) = 0x30000410#32 ∧
  asmLine "GSAMP d3, #256" = some [.instr (.gsamp 3 256)] ∧ encode (.gsamp 3 256) = 0x40100300#32 ∧
  asmLine "GSAMP d15, #65535" = some [.instr (.gsamp 15 65535)] ∧ encode (.gsamp 15 65535) = 0x4FFFFF00#32 ∧
  asmLine "DECB d5, d6, d7" = some [.instr (.decb 5 6 7)] ∧ encode (.decb 5 6 7) = 0x50000567#32 ∧
  asmLine ".word 0x6000_0000" = some [.word 0x60000000#32] ∧ decode 0x60000000#32 = .error .reservedOpcode ∧
  asmLine ".word 0x1000_1201" = some [.word 0x10001201#32] ∧ decode 0x10001201#32 = .error .mustBeZero

/-- R92: whatever line is assembled, an instruction's word has no nonzero must-be-zero field: it decodes to that
instruction. -/
def Obligations.AssemblerEmitsLegalWords : Prop :=
  ∀ (line : List Char) (items : List AsmItem) (i : Instr), asmChars line = some items → .instr i ∈ items →
    decode (AsmItem.toWord (.instr i)) = .ok i

/-! ### Steps (spec/40_command_protocol.md R99 to R104) -/

/-- R102, R103 (the schedule is the model's, log entry 2): the executor's turn, scheduled or taken because the
schedule is exhausted, runs the command whose word is in flight; a host turn plays one host access. -/
def Obligations.StepRunsCommandInFlight : Prop :=
  (∀ (s : State) (fl : Inflight) (i : Instr), s.rstN = true → s.status.busy = true → s.inflight = some fl →
    decode fl.word = .ok i →
    (s.sched = [] → step s = exec i s) ∧
    ∀ rest, s.sched = .executor :: rest → step s = exec i { s with sched := rest }) ∧
  ∀ (s : State) (a : Access) (rest : List Turn), s.sched = .host a :: rest →
    step s = hostAccess a { s with sched := rest }

/-- R105, R154 (the checks after the decode check): for each command the first check that fails, in the order MODULUS,
PARAM, DIM, BOUNDS, gives the code, and the command has no effect but BUSY <- 0, DONE <- 1, ERR <- code (R106). -/
def Obligations.ChecksFailInOrder : Prop :=
  ∀ (s : State) (fl : Inflight), s.inflight = some fl →
    (∀ d a b, fl.q.toNat < 2 → exec (.mmul d a b) s = .next (endedWith s 3#4) ∧
      exec (.madd d a b) s = .next (endedWith s 3#4) ∧ exec (.decb d a b) s = .next (endedWith s 3#4)) ∧
    (∀ d size, fl.q.toNat < 2 → exec (.gsamp d size) s = .next (endedWith s 3#4)) ∧
    (∀ d size, 2 ≤ fl.q.toNat → fl.sigma.toNat = 0 → exec (.gsamp d size) s = .next (endedWith s 4#4)) ∧
    (∀ d size, 2 ≤ fl.q.toNat → fl.sigma.toNat ≠ 0 → s.memWords < (fl.snap d).base.toNat + size →
      exec (.gsamp d size) s = .next (endedWith s 5#4)) ∧
    (∀ d a b, 2 ≤ fl.q.toNat → (fl.snap a).cols ≠ (fl.snap b).rows →
      exec (.mmul d a b) s = .next (endedWith s 1#4)) ∧
    (∀ d a b, 2 ≤ fl.q.toNat → (fl.snap a).cols = (fl.snap b).rows →
      ¬ (InMemory (fl.snap a) s.memWords ∧ InMemory (fl.snap b) s.memWords ∧
        (fl.snap d).base.toNat + (fl.snap a).rows.toNat * (fl.snap b).cols.toNat ≤ s.memWords) →
      exec (.mmul d a b) s = .next (endedWith s 5#4)) ∧
    (∀ d a b, 2 ≤ fl.q.toNat → ((fl.snap a).rows ≠ (fl.snap b).rows ∨ (fl.snap a).cols ≠ (fl.snap b).cols) →
      exec (.madd d a b) s = .next (endedWith s 1#4) ∧ exec (.decb d a b) s = .next (endedWith s 1#4)) ∧
    (∀ d a b, 2 ≤ fl.q.toNat → (fl.snap a).rows = (fl.snap b).rows → (fl.snap a).cols = (fl.snap b).cols →
      ¬ (InMemory (fl.snap a) s.memWords ∧ InMemory (fl.snap b) s.memWords ∧
        (fl.snap d).base.toNat + (fl.snap a).rows.toNat * (fl.snap a).cols.toNat ≤ s.memWords) →
      exec (.madd d a b) s = .next (endedWith s 5#4) ∧ exec (.decb d a b) s = .next (endedWith s 5#4)) ∧
    (∀ d a, ¬ (InMemory (fl.snap a) s.memWords ∧
        (fl.snap d).base.toNat + (fl.snap a).cols.toNat * (fl.snap a).rows.toNat ≤ s.memWords) →
      exec (.mtrn d a) s = .next (endedWith s 5#4))

/-- R45, R103, R112: the frame of every command. Whatever it answers with a next state, a command leaves ID, CTRL.IE,
Q, SIGMA, CMD_LAST, CMDOVR, ACCERR, the parameter and the ports unchanged (a GSAMP may take draws), every element
outside its destination region, every descriptor but its destination, and the BASE of that one. -/
def Obligations.CommandFrameHolds : Prop :=
  ∀ (i : Instr) (s t : State) (fl : Inflight), s.inflight = some fl → exec i s = .next t →
    CommandFrame { s with entropy := t.entropy } t ∧
    ((∀ d size, i ≠ .gsamp d size) → t.entropy = s.entropy) ∧
    (∀ x, (∀ d r c, resultShape i fl = some (d, r, c) →
        x < (fl.snap d).base.toNat ∨ (fl.snap d).base.toNat + r * c ≤ x) → t.mem.read x = s.mem.read x) ∧
    (∀ k : DescIdx, (∀ d r c, resultShape i fl = some (d, r, c) → k ≠ d) → t.descs[k] = s.descs[k]) ∧
    ∀ k : DescIdx, t.descs[k].base = s.descs[k].base

/-- R102: every command other than GSAMP is always ready: its executor step completes it (BUSY <- 0, DONE <- 1,
nothing in flight), or is a fault of the model because it reads an unwritten element (R70). -/
def Obligations.OtherCommandsAreAlwaysReady : Prop :=
  ∀ (i : Instr) (s : State) (fl : Inflight), s.inflight = some fl → (∀ d size, i ≠ .gsamp d size) →
    (∃ t, exec i s = .next t ∧ t.inflight = none ∧ t.status.busy = false ∧ t.status.done = true) ∨
    exec i s = .fault .commandReadUnwritten

/-- R101: a completing command reads only INFLIGHT and memory: two blocks that agree on those and on MEM_WORDS complete
it with the same code and memory, write the same shape to the destination descriptor on success, leave every other
descriptor and every BASE as each of them had it, and fault alike, whatever their other registers, their current
descriptors, their flags and ports are. -/
def Obligations.CommandReadsOnlyInflightAndMemory : Prop :=
  ∀ (i : Instr) (s s' : State) (fl : Inflight), s.inflight = some fl → s'.inflight = some fl → s'.mem = s.mem →
    s'.memWords = s.memWords →
    (∀ t, exec i s = .next t → t.inflight = none →
      ∃ t', exec i s' = .next t' ∧ t'.inflight = none ∧ t'.mem = t.mem ∧ t'.status.err = t.status.err ∧
        (∀ k : DescIdx, t'.descs[k].base = s'.descs[k].base) ∧
        (∀ d r c, resultShape i fl = some (d, r, c) → t.status.err = 0#4 →
          t'.descs[d].rows = t.descs[d].rows ∧ t'.descs[d].cols = t.descs[d].cols) ∧
        ∀ k : DescIdx, (∀ d r c, resultShape i fl = some (d, r, c) → k = d → t.status.err ≠ 0#4) →
          t'.descs[k] = s'.descs[k]) ∧
    ∀ f, exec i s = .fault f → exec i s' = .fault f

/-- R35, R104: while a command is in flight, no host access other than a soft reset changes anything that the command
reads or writes, or what it computes. -/
def Obligations.HostCannotDisturbCommand : Prop :=
  ∀ (a : Access) (s s' : State), s.status.busy = true → hostAccess a s = .next s' →
    (∀ w, a = wordWrite 0x004 w → w.getLsbD 1 = false) →
    s'.inflight = s.inflight ∧ s'.mem = s.mem ∧ s'.descs = s.descs ∧ s'.q = s.q ∧ s'.sigma = s.sigma ∧
    s'.cmdLast = s.cmdLast ∧ s'.status.busy = true ∧ s'.status.err = s.status.err ∧ s'.entropy = s.entropy ∧
    ∀ i : Instr,
      (∀ t, exec i s = .next t → ∃ t', exec i s' = .next t' ∧ t'.inflight = t.inflight ∧ t'.mem = t.mem ∧
        t'.descs = t.descs ∧ t'.entropy = t.entropy ∧ t'.status.err = t.status.err ∧
        t'.status.busy = t.status.busy) ∧
      ∀ f, exec i s = .fault f → exec i s' = .fault f

/-! ### NOP (R113) -/

/-- R113: NOP completes with ERR 0 in every state with a command in flight, also with Q = 0 and SIGMA = 0, and writes
nothing but the flags; after reset, issuing word 0 and one executor turn leave STATUS = 0x2. -/
def Obligations.NopCompletes : Prop :=
  (∀ (s : State) (fl : Inflight), s.inflight = some fl → exec .nop s = .next (endedWith s 0#4)) ∧
  (∀ w : Word, decode w = .ok .nop ↔ w = 0#32) ∧
  ∀ n, ∃ t, exec .nop ((State.powerOn n).issue 0#32) = .next t ∧ t.status.toWord = 0x2#32 ∧
    t = { State.powerOn n with status := t.status }

/-! ### The matrix engine (spec/41_matrix_engine.md) -/

/-- R115, with R103, R107, R112: MMUL with 2 ≤ q, A.COLS = B.ROWS, regions in bounds and every element of A and B
written completes with D = A·B mod q: entry (i, j) is the exact sum of Elem(A, i, k)·Elem(B, k, j), reduced once, with
the operands as they stood before; shape (A.ROWS, B.COLS). Operands need not be reduced; regions may overlap. -/
def Obligations.MmulWritesProduct : Prop :=
  ∀ (s : State) (fl : Inflight) (d a b : DescIdx) (x y : Nat → Nat → Elem), s.inflight = some fl →
    2 ≤ fl.q.toNat → (fl.snap a).cols = (fl.snap b).rows →
    InMemory (fl.snap a) s.memWords → InMemory (fl.snap b) s.memWords →
    (fl.snap d).base.toNat + (fl.snap a).rows.toNat * (fl.snap b).cols.toNat ≤ s.memWords →
    Holds (fl.snap a) s.mem (fl.snap a).rows.toNat (fl.snap a).cols.toNat x →
    Holds (fl.snap b) s.mem (fl.snap b).rows.toNat (fl.snap b).cols.toNat y →
    ∃ t, exec (.mmul d a b) s = .next t ∧
      CompletedWith s t d (fl.snap d).base.toNat (fl.snap a).rows.toNat (fl.snap b).cols.toNat fun i j =>
        BitVec.ofNat 16
          ((∑ k ∈ Finset.range (fl.snap a).cols.toNat, (x i k).toNat * (y k j).toNat) % fl.q.toNat)

/-- R119, with R103, R107, R112: MADD of matrices of one shape, under the same conditions, completes with
D = A+B mod q. -/
def Obligations.MaddWritesSum : Prop :=
  ∀ (s : State) (fl : Inflight) (d a b : DescIdx) (x y : Nat → Nat → Elem), s.inflight = some fl →
    2 ≤ fl.q.toNat → (fl.snap a).rows = (fl.snap b).rows → (fl.snap a).cols = (fl.snap b).cols →
    InMemory (fl.snap a) s.memWords → InMemory (fl.snap b) s.memWords →
    (fl.snap d).base.toNat + (fl.snap a).rows.toNat * (fl.snap a).cols.toNat ≤ s.memWords →
    Holds (fl.snap a) s.mem (fl.snap a).rows.toNat (fl.snap a).cols.toNat x →
    Holds (fl.snap b) s.mem (fl.snap b).rows.toNat (fl.snap b).cols.toNat y →
    ∃ t, exec (.madd d a b) s = .next t ∧
      CompletedWith s t d (fl.snap d).base.toNat (fl.snap a).rows.toNat (fl.snap a).cols.toNat fun i j =>
        BitVec.ofNat 16 (((x i j).toNat + (y i j).toNat) % fl.q.toNat)

/-- R121, R122, with R103, R107, R112: MTRN completes with D = Aᵗ, each element copied unchanged, shape
(A.COLS, A.ROWS), whatever Q holds. -/
def Obligations.MtrnWritesTranspose : Prop :=
  ∀ (s : State) (fl : Inflight) (d a : DescIdx) (x : Nat → Nat → Elem), s.inflight = some fl →
    InMemory (fl.snap a) s.memWords →
    (fl.snap d).base.toNat + (fl.snap a).cols.toNat * (fl.snap a).rows.toNat ≤ s.memWords →
    Holds (fl.snap a) s.mem (fl.snap a).rows.toNat (fl.snap a).cols.toNat x →
    ∃ t, exec (.mtrn d a) s = .next t ∧
      CompletedWith s t d (fl.snap d).base.toNat (fl.snap a).cols.toNat (fl.snap a).rows.toNat fun i j => x j i

/-- R118: the accumulator of MMUL never overflows: for K ≤ 65535 the exact sum is at most (2^16 − 1)^3 < 2^48, so a
64-bit accumulator that wraps holds it. -/
def Obligations.AccumulatorNeverOverflows : Prop :=
  ∀ (A B : Desc) (m : Memory) (i j K : Nat) (x y : Nat → Elem), K ≤ 65535 →
    (∀ k, k < K → A.elem m i k = some (x k)) → (∀ k, k < K → B.elem m k j = some (y k)) →
    ∃ acc, mmulAcc A B m i j K = some acc ∧ acc ≤ 65535 * 65535 ^ 2 ∧ acc < 2 ^ 48 ∧
      (mmulAcc64 x y K).toNat = acc ∧ ∀ q : Nat, 1 ≤ q → floormod acc q = acc % q

/-- R120: every element MADD writes lies in [0, q); MADD of (A, B) and of (B, A) have the same outcome in every state;
when both entries are below q, the result is a + b if a + b < q, and a + b − q otherwise. -/
def Obligations.MaddCommutes : Prop :=
  (∀ (s : State) (d a b : DescIdx), exec (.madd d a b) s = exec (.madd d b a) s) ∧
  ∀ (A B : Desc) (m : Memory) (q : BitVec 16) (i j : Nat) (x y : Elem), 2 ≤ q.toNat →
    A.elem m i j = some x → B.elem m i j = some y →
    ∃ v, maddEntry A B m q.toNat i j = some v ∧ v.toNat < q.toNat ∧
      (x.toNat < q.toNat → y.toNat < q.toNat →
        v.toNat = if x.toNat + y.toNat < q.toNat then x.toNat + y.toNat else x.toNat + y.toNat - q.toNat)

/-- R117, R126, R147, R134: after a success, every element of the destination region of MMUL, MADD and GSAMP is
written and lies in [0, q); every one of DECB is 0 or 1. -/
def Obligations.ResultsAreReduced : Prop :=
  ∀ (i : Instr) (s t : State) (fl : Inflight) (d : DescIdx) (r c : Nat), s.inflight = some fl →
    checks i fl s.memWords = .ok → resultShape i fl = some (d, r, c) → exec i s = .next t → t.inflight = none →
    (∀ d a, i ≠ .mtrn d a) →
    ∀ x, (fl.snap d).base.toNat ≤ x → x < (fl.snap d).base.toNat + r * c →
      ∃ v, t.mem.read x = some v ∧ v.toNat < fl.q.toNat ∧ ((∃ d v w, i = .decb d v w) → v = 0#16 ∨ v = 1#16)

/-- R125: replacing every operand entry x of MMUL or MADD by floormod(x, q), whatever other elements hold before and
after, leaves every result entry unchanged. -/
def Obligations.UnreducedOperandsChangeNothing : Prop :=
  ∀ (A B : Desc) (m m' : Memory) (q : Nat), 2 ≤ q →
    (∀ i j, i < A.rows.toNat → j < A.cols.toNat →
      A.elem m' i j = (A.elem m i j).map fun v => BitVec.ofNat 16 (v.toNat % q)) →
    (∀ i j, i < B.rows.toNat → j < B.cols.toNat →
      B.elem m' i j = (B.elem m i j).map fun v => BitVec.ofNat 16 (v.toNat % q)) →
    (A.cols = B.rows → ∀ i j, i < A.rows.toNat → j < B.cols.toNat →
      mmulEntry A B m' q i j = mmulEntry A B m q i j) ∧
    (A.rows = B.rows → A.cols = B.cols → ∀ i j, i < A.rows.toNat → j < A.cols.toNat →
      maddEntry A B m' q i j = maddEntry A B m q i j)

/-- R123: the transpose of a transpose. From an idle block, MTRN dD, dA and then MTRN dE, dD, both successful, leave
D[E] with the shape that D[A] had and the element values that A had; in place (any of the indices equal) too. -/
def Obligations.TransposeIsInvolution : Prop :=
  ∀ (s t u : State) (a d e : DescIdx) (x : Nat → Nat → Elem),
    Holds s.descs[a] s.mem s.descs[a].rows.toNat s.descs[a].cols.toNat x →
    exec (.mtrn d a) (s.issue (encode (.mtrn d a))) = .next t → t.status.err = 0#4 →
    exec (.mtrn e d) (t.issue (encode (.mtrn e d))) = .next u → u.status.err = 0#4 →
    u.descs[e].base = s.descs[e].base ∧ u.descs[e].rows = s.descs[a].rows ∧ u.descs[e].cols = s.descs[a].cols ∧
    Holds u.descs[e] u.mem s.descs[a].rows.toNat s.descs[a].cols.toNat x

/-- R124: multiply is associative mod q. Where AB holds the entries that MMUL writes for (A, B), and BC those for
(B, C), MMUL writes the same entries for (AB, C) and for (A, BC). -/
def Obligations.MultiplyIsAssociative : Prop :=
  ∀ (A B C AB BC : Desc) (m : Memory) (q : BitVec 16) (x y z : Nat → Nat → Elem), 2 ≤ q.toNat →
    A.cols = B.rows → B.cols = C.rows → AB.cols = B.cols → BC.rows = B.rows → BC.cols = C.cols → AB.rows = A.rows →
    Holds A m A.rows.toNat A.cols.toNat x → Holds B m B.rows.toNat B.cols.toNat y →
    Holds C m C.rows.toNat C.cols.toNat z →
    (∀ i l, i < A.rows.toNat → l < B.cols.toNat → AB.elem m i l = mmulEntry A B m q.toNat i l) →
    (∀ k j, k < B.rows.toNat → j < C.cols.toNat → BC.elem m k j = mmulEntry B C m q.toNat k j) →
    ∀ i j, i < A.rows.toNat → j < C.cols.toNat →
      ∃ v, mmulEntry AB C m q.toNat i j = some v ∧ mmulEntry A BC m q.toNat i j = some v

/-- R128: the ROWS and COLS that the destination descriptor held before a successful MMUL, MADD, MTRN (and DECB) play
no part in it, when the destination is no source. -/
def Obligations.DestinationShapeIsIgnored : Prop :=
  ∀ (i : Instr) (s t : State) (fl : Inflight) (d : DescIdx) (r c : Nat) (rows cols : BitVec 16),
    s.inflight = some fl → resultShape i fl = some (d, r, c) → (∀ d size, i ≠ .gsamp d size) → d ∉ sources i →
    exec i s = .next t → t.status.err = 0#4 →
    exec i { s with
      descs := s.descs.set d { s.descs[d] with rows := rows, cols := cols }
      inflight := some { fl with dsnap := fl.dsnap.set d { fl.dsnap[d] with rows := rows, cols := cols } } } = .next t

/-! ### The sampler (spec/42_gaussian_sampler.md) -/

/-- R129, with R103, R112, R131, R133, R134: GSAMP with 2 ≤ q, SIGMA ≠ 0, BASE + size ≤ MEM_WORDS, holding its `size`
draws, completes with the size×1 vector whose entry i is floormod(sign(P)·⌊(|P| + 2^23) / 2^24⌋, q), P = S·Z of draw
i. -/
def Obligations.GsampWritesSamples : Prop :=
  ∀ (s : State) (fl : Inflight) (d : DescIdx) (size : Nat) (z : Nat → Word), s.inflight = some fl →
    2 ≤ fl.q.toNat → fl.sigma.toNat ≠ 0 → (fl.snap d).base.toNat + size ≤ s.memWords →
    fl.draws.length = size → (∀ i, i < size → fl.draws[i]? = some (z i)) →
    ∃ t, exec (.gsamp d size) s = .next t ∧
      CompletedWith s t d (fl.snap d).base.toNat size 1 fun i _ =>
        let P : Int := fl.sigma.toNat * (z i).toInt
        BitVec.ofNat 16 ((P.sign * (((P.natAbs + 2 ^ 23) / 2 ^ 24 : Nat) : Int)) % (fl.q.toNat : Int)).toNat

/-- R131, R184: a GSAMP whose checks pass and that holds fewer than `size` draws takes the next offered draw and
nothing else changes; with none offered it waits, and the state stays (waiting as a stutter: log entry 3; the offered
draws as a list: log entry 4). In every state, ent_ready is 1 exactly while the block is out of reset and BUSY, a GSAMP
whose checks pass is in flight, and it holds fewer than `size` draws (R58, R171): with nothing in flight, or a GSAMP
whose checks fail, it is 0. -/
def Obligations.GsampTakesDrawsInOrder : Prop :=
  (∀ (s : State) (fl : Inflight) (d : DescIdx) (size : Nat), s.inflight = some fl →
    2 ≤ fl.q.toNat → fl.sigma.toNat ≠ 0 → (fl.snap d).base.toNat + size ≤ s.memWords → fl.draws.length < size →
    (∀ z rest, s.entropy = z :: rest → exec (.gsamp d size) s = .next
      { s with entropy := rest, inflight := some { fl with draws := fl.draws ++ [z] } }) ∧
    (s.entropy = [] → exec (.gsamp d size) s = .next s)) ∧
  ∀ s : State, s.entReady = true ↔ s.rstN = true ∧ s.status.busy = true ∧
    ∃ fl d size, s.inflight = some fl ∧ decode fl.word = .ok (.gsamp d size) ∧ 2 ≤ fl.q.toNat ∧ fl.sigma.toNat ≠ 0 ∧
      (fl.snap d).base.toNat + size ≤ s.memWords ∧ fl.draws.length < size

/-- R131, R184, R187: with the schedule exhausted and at least `size` draws offered, a GSAMP whose checks pass takes
exactly the first `size` of them, in order, and has completed after size + 1 steps. -/
def Obligations.GsampCompletesOnceSupplied : Prop :=
  ∀ (s : State) (fl : Inflight) (d : DescIdx) (size : Nat) (zs rest : List Word), s.sched = [] → s.rstN = true →
    s.status.busy = true → s.inflight = some fl → decode fl.word = .ok (.gsamp d size) → fl.draws = [] →
    2 ≤ fl.q.toNat → fl.sigma.toNat ≠ 0 → (fl.snap d).base.toNat + size ≤ s.memWords →
    s.entropy = zs ++ rest → zs.length = size →
    ∃ t, Sys2Proof.core.run (size + 1) s = .next t ∧ t.entropy = rest ∧
      CompletedWith { s with entropy := rest } t d (fl.snap d).base.toNat size 1 fun i _ =>
        gaussElem fl.q.toNat fl.sigma (zs.getD i 0#32)

/-- R133: P = S·Z is exact with |P| < 2^47; the rounded sample k is nearest to P / 2^24; a tie goes away from zero;
the rounding is odd-symmetric. -/
def Obligations.SampleRoundsHalfAway : Prop :=
  (∀ (S : BitVec 16) (z : Word), ((S.toNat : Int) * z.toInt).natAbs < 2 ^ 47 ∧
    gaussSample S z = roundHalfAway24 ((S.toNat : Int) * z.toInt)) ∧
  ∀ P : Int, (P - roundHalfAway24 P * 2 ^ 24).natAbs ≤ 2 ^ 23 ∧
    ((P - roundHalfAway24 P * 2 ^ 24).natAbs = 2 ^ 23 → P.natAbs < (roundHalfAway24 P * 2 ^ 24).natAbs) ∧
    roundHalfAway24 P = P.sign * (((P.natAbs + 2 ^ 23) / 2 ^ 24 : Nat) : Int) ∧
    roundHalfAway24 (-P) = -roundHalfAway24 P

/-- R135, R137: |k| ≤ 128·S < 2^23; the draws reach every integer of [−128·S, 128·S], both ends at the extreme draws;
so when 2·128·S + 1 ≥ q they reach every residue. -/
def Obligations.SampleRangeIsExact : Prop :=
  ∀ S : BitVec 16,
    (∀ z : Word, (gaussSample S z).natAbs ≤ 128 * S.toNat ∧ (gaussSample S z).natAbs < 2 ^ 23) ∧
    gaussSample S 0x80000000#32 = -(128 * S.toNat : Int) ∧ gaussSample S 0x7FFFFFFF#32 = (128 * S.toNat : Int) ∧
    (∀ k : Int, k.natAbs ≤ 128 * S.toNat → ∃ z : Word, gaussSample S z = k) ∧
    ∀ q : Nat, 2 ≤ q → q ≤ 2 * (128 * S.toNat) + 1 → ∀ r, r < q → ∃ z : Word, floormod (gaussSample S z) q = r

/-! ### The decoder (spec/43_bit_decoder.md) -/

/-- R140, R141, with R103, R107, R112: DECB of matrices of one shape, with 2 ≤ q, regions in bounds and every element
written, completes with the bit that raw = floormod(v − w, q) decodes to in each entry: 0 if
min(raw, q − raw) < |raw − ⌊q/2⌋|, else 1. -/
def Obligations.DecbWritesBits : Prop :=
  ∀ (s : State) (fl : Inflight) (d v w : DescIdx) (x y : Nat → Nat → Elem), s.inflight = some fl →
    2 ≤ fl.q.toNat → (fl.snap v).rows = (fl.snap w).rows → (fl.snap v).cols = (fl.snap w).cols →
    InMemory (fl.snap v) s.memWords → InMemory (fl.snap w) s.memWords →
    (fl.snap d).base.toNat + (fl.snap v).rows.toNat * (fl.snap v).cols.toNat ≤ s.memWords →
    Holds (fl.snap v) s.mem (fl.snap v).rows.toNat (fl.snap v).cols.toNat x →
    Holds (fl.snap w) s.mem (fl.snap w).rows.toNat (fl.snap w).cols.toNat y →
    ∃ t, exec (.decb d v w) s = .next t ∧
      CompletedWith s t d (fl.snap d).base.toNat (fl.snap v).rows.toNat (fl.snap v).cols.toNat fun i j =>
        let raw : Int := (((x i j).toNat : Int) - ((y i j).toNat : Int)) % (fl.q.toNat : Int)
        if min raw (fl.q.toNat - raw) < |raw - ((fl.q.toNat / 2 : Nat) : Int)| then 0#16 else 1#16

/-- R143: with h = ⌊q/2⌋, DecodeBit(raw, q) = 1 exactly when ⌈h/2⌉ ≤ raw ≤ ⌊(q + h)/2⌋, and 0 otherwise. -/
def Obligations.DecodeBitClosedForm : Prop :=
  ∀ q raw : Nat, 2 ≤ q → raw < q →
    decodeBit raw q = if (q / 2 + 1) / 2 ≤ raw ∧ raw ≤ (q + q / 2) / 2 then 1 else 0

/-- R142, R144: d0 = dHalf exactly at raw = h/2 when h is even and at raw = (q + h)/2 when q + h is even; a tie
decodes to 1. -/
def Obligations.DecodeTiesGiveOne : Prop :=
  ∀ q raw : Nat, 2 ≤ q → raw < q →
    (min raw (q - raw) = ((raw : Int) - ((q / 2 : Nat) : Int)).natAbs ↔
      (q / 2 % 2 = 0 ∧ raw = q / 2 / 2) ∨ ((q + q / 2) % 2 = 0 ∧ raw = (q + q / 2) / 2)) ∧
    (min raw (q - raw) = ((raw : Int) - ((q / 2 : Nat) : Int)).natAbs → decodeBit raw q = 1)

/-- R145: a bit b with noise e decodes to b whenever |e| < ⌈h/2⌉; at q = 3329 the exact correct sets are
e ∈ [−832, 831] for b = 0 and e ∈ [−832, 832] for b = 1, each taken mod q. -/
def Obligations.DecodeToleratesNoise : Prop :=
  (∀ (q : Nat) (b : Nat) (e : Int), 2 ≤ q → b ≤ 1 → e.natAbs < (q / 2 + 1) / 2 →
    decodeBit (floormod ((b : Int) * ((q / 2 : Nat) : Int) + e) q) q = b) ∧
  ∀ e : Int,
    (decodeBit (floormod e 3329) 3329 = 0 ↔ ∃ n : Int, -832 ≤ e + 3329 * n ∧ e + 3329 * n ≤ 831) ∧
    (decodeBit (floormod (1664 + e) 3329) 3329 = 1 ↔ ∃ n : Int, -832 ≤ e + 3329 * n ∧ e + 3329 * n ≤ 832)

/-- R148, and R140's corner V = W: only the residues of v and w mod q matter, and equal operands decode to 0. -/
def Obligations.DecodeDependsOnResidues : Prop :=
  (∀ (v w : Elem) (q : Nat), 2 ≤ q →
    decodeRaw v w q = floormod ((floormod v.toNat q : Int) - (floormod w.toNat q : Int)) q) ∧
  ∀ (v : Elem) (q : Nat), 2 ≤ q → decodeBit (decodeRaw v v q) q = 0

/-! ### Invariants and whole-machine rules -/

/-- The invariant holds of the block of every legal size right after power-on. -/
def Obligations.InvariantHoldsAtReset : Prop :=
  State.reset.Inv ∧ ∀ n : Nat, (State.powerOn n).Inv

/-- Every step keeps the invariant: BUSY = 1 exactly while INFLIGHT holds a command (R33, R49), DONE and BUSY never
both 1 (R34), ERR ≤ 5 (R152) and 0 while BUSY (R38), the snapshot equal to the current registers (R49), no draw beyond
what the command needs (R131), memory canonical and within MEM_WORDS (R59), the reset state while rst_n = 0 (R171). -/
def Obligations.StepKeepsInvariant : Prop :=
  ∀ s t : State, s.Inv → step s = .next t → t.Inv

/-- R36, R37, R159: CMDOVR and ACCERR are sticky. In one step, only a STATUS write with their bit 1, a soft reset or
the reset pin clears them; only a CMD write while BUSY sets CMDOVR; only a host access sets ACCERR. -/
def Obligations.ErrorFlagsAreSticky : Prop :=
  ∀ s t : State, step s = .next t →
    (s.status.cmdovr = true → t.status.cmdovr = false →
      (∃ w rest, s.sched = .host (wordWrite 0x008 w) :: rest ∧ w.getLsbD 2 = true) ∨
      (∃ w rest, s.sched = .host (wordWrite 0x004 w) :: rest ∧ w.getLsbD 1 = true) ∨
      ∃ l rest, s.sched = .rstN l :: rest) ∧
    (s.status.accerr = true → t.status.accerr = false →
      (∃ w rest, s.sched = .host (wordWrite 0x008 w) :: rest ∧ w.getLsbD 3 = true) ∨
      (∃ w rest, s.sched = .host (wordWrite 0x004 w) :: rest ∧ w.getLsbD 1 = true) ∨
      ∃ l rest, s.sched = .rstN l :: rest) ∧
    (s.status.cmdovr = false → t.status.cmdovr = true →
      s.status.busy = true ∧ ∃ w rest, s.sched = .host (wordWrite 0x00C w) :: rest) ∧
    (s.status.accerr = false → t.status.accerr = true → ∃ a rest, s.sched = .host a :: rest)

/-- R33, R36, R99: BUSY rises only by an accepted CMD write, and falls only in an executor's turn (the completion), by
a soft reset or by the reset pin. -/
def Obligations.BusyChangesOnlyByIssueCompletionReset : Prop :=
  ∀ s t : State, step s = .next t →
    (s.status.busy = false → t.status.busy = true →
      ∃ w rest, s.sched = .host (wordWrite 0x00C w) :: rest ∧ t.cmdLast = w) ∧
    (s.status.busy = true → t.status.busy = false →
      (s.sched = [] ∨ ∃ rest, s.sched = .executor :: rest) ∧ t.status.done = true ∨
      (∃ w rest, s.sched = .host (wordWrite 0x004 w) :: rest ∧ w.getLsbD 1 = true) ∨
      ∃ l rest, s.sched = .rstN l :: rest)

/-- R51, R156, R157, R181: irq rises only at the completion of a command with IE = 1, or by a CTRL write that sets IE
while DONE = 1; the issue of the next command drops it. -/
def Obligations.InterruptRisesAtCompletion : Prop :=
  (∀ s t : State, step s = .next t → s.irq = false → t.irq = true →
    (s.status.busy = true ∧ s.ie = true ∧ (s.sched = [] ∨ ∃ rest, s.sched = .executor :: rest)) ∨
    ∃ w rest, s.sched = .host (wordWrite 0x004 w) :: rest ∧ w.getLsbD 0 = true ∧ s.status.done = true) ∧
  ∀ (s t : State) (w : Word) (rest : List Turn), s.sched = .host (wordWrite 0x00C w) :: rest →
    s.status.busy = false → step s = .next t → t.irq = false
end

