-- ==== Sys2Proof/Laws/Arithmetic.lean ====
section
/-! SUPPORT. Floor modulo and the entry functions of the commands on known operand values. -/

namespace Sys2Proof.Machine

/-! ### Floor modulo -/

theorem floormod_lt (x : Int) {q : Nat} (hq : 0 < q) : floormod x q < q := by
  have h1 := Int.emod_nonneg x (b := (q : Int)) (by omega)
  have h2 := Int.emod_lt_of_pos x (b := (q : Int)) (by omega)
  simp only [floormod]; omega

/-- The integer value of floormod(x, q). -/
theorem floormod_cast (x : Int) {q : Nat} (hq : 0 < q) : (floormod x q : Int) = x % q :=
  Int.toNat_of_nonneg (Int.emod_nonneg x (by omega))

/-- On natural numbers floor modulo is the remainder. -/
@[simp] theorem floormod_natCast (n q : Nat) : floormod (n : Int) q = n % q := by
  simp only [floormod, ← Int.natCast_mod, Int.toNat_natCast]

/-- A value below a modulus of 16 bits is stored whole. -/
theorem toElem_toNat {n q : Nat} (hn : n < q) (hq : q ≤ 65536) : (toElem n).toNat = n := by
  simp only [toElem, BitVec.toNat_ofNat]; omega

theorem toElem_floormod_toNat (x : Int) (q : BitVec 16) (hq : 0 < q.toNat) :
    (toElem (floormod x q.toNat)).toNat = floormod x q.toNat :=
  toElem_toNat (floormod_lt x hq) (by have := q.isLt; omega)

/-! ### Entries on known operands -/

/-- The accumulator on written operands is the sum of the products. -/
theorem mmulAcc_eq_sum {A B : Desc} {m : Memory} {i j n : Nat} {x y : Nat → Elem}
    (hx : ∀ k, k < n → A.elem m i k = some (x k)) (hy : ∀ k, k < n → B.elem m k j = some (y k)) :
    mmulAcc A B m i j n = some (∑ k ∈ Finset.range n, (x k).toNat * (y k).toNat) := by
  induction n with
  | zero => rfl
  | succ n ih =>
    simp only [mmulAcc, ih (fun k hk => hx k (by omega)) (fun k hk => hy k (by omega)),
      hx n (by omega), hy n (by omega), Finset.sum_range_succ]

/-- An unwritten operand leaves the accumulator without a value. -/
theorem mmulAcc_eq_none {A B : Desc} {m : Memory} {i j n k : Nat} (hk : k < n)
    (h : A.elem m i k = none ∨ B.elem m k j = none) : mmulAcc A B m i j n = none := by
  induction n with
  | zero => omega
  | succ n ih =>
    simp only [mmulAcc]
    by_cases hkn : k = n
    · subst hkn
      split
      · simp_all
      · rfl
    · rw [ih (by omega)]

theorem mmulEntry_eq {A B : Desc} {m : Memory} {q i j : Nat} {x y : Nat → Elem}
    (hx : ∀ k, k < A.cols.toNat → A.elem m i k = some (x k))
    (hy : ∀ k, k < A.cols.toNat → B.elem m k j = some (y k)) :
    mmulEntry A B m q i j =
      some (toElem ((∑ k ∈ Finset.range A.cols.toNat, (x k).toNat * (y k).toNat) % q)) := by
  simp only [mmulEntry, mmulAcc_eq_sum hx hy, Option.map_some, floormod_natCast]

theorem maddEntry_eq {A B : Desc} {m : Memory} {q i j : Nat} {x y : Elem}
    (hx : A.elem m i j = some x) (hy : B.elem m i j = some y) :
    maddEntry A B m q i j = some (toElem ((x.toNat + y.toNat) % q)) := by
  simp only [maddEntry, hx, hy, ← floormod_natCast]
  norm_cast

theorem decbEntry_eq {V W : Desc} {m : Memory} {q i j : Nat} {v w : Elem}
    (hv : V.elem m i j = some v) (hw : W.elem m i j = some w) :
    decbEntry V W m q i j = some (toElem (decodeBit (decodeRaw v w q) q)) := by
  simp only [decbEntry, hv, hw]

/-- DecodeBit answers 0 or 1. -/
theorem decodeBit_le_one (raw q : Nat) : decodeBit raw q ≤ 1 := by
  simp only [decodeBit]; split <;> omega

/-! ### The writes of GSAMP -/

/-- GSAMP writes inside the region of its draws only. -/
theorem gaussWrites_index {q : Nat} {S : BitVec 16} {base : Nat} {zs : List Word} {e : Nat × Elem}
    (h : e ∈ gaussWrites q S base zs) : base ≤ e.1 ∧ e.1 < base + zs.length := by
  induction zs generalizing base with
  | nil => cases h
  | cons z zs ih =>
    rcases List.mem_cons.1 h with rfl | h
    · simp
    · have := ih h; simp only [List.length_cons]; omega

end Sys2Proof.Machine
end

