-- ==== Sys2Proof/Laws/Memory.lean ====
section
/-! SUPPORT. Operand memory: read after write, and that every memory operation keeps the canonical form and the
index range. -/

namespace Sys2Proof.Machine

/-! ### Read after write -/

@[simp] theorem Memory.read_nil (a : Nat) : Memory.read [] a = none := rfl

theorem Memory.read_write (m : Memory) (a : Nat) (v : Elem) (b : Nat) :
    (m.write a v).read b = if b = a then some v else m.read b := by
  induction m with
  | nil => simp [Memory.write, Memory.read]
  | cons p m ih =>
    obtain ⟨k, x⟩ := p
    simp only [Memory.write]
    split
    · simp [Memory.read]
    · split
      · next h => subst h; by_cases hb : b = a <;> simp [Memory.read, hb]
      · next h =>
        simp only [Memory.read, ih]
        by_cases hk : b = k
        · have : b ≠ a := by omega
          simp [hk]; omega
        · simp [hk]

theorem Memory.read_write_self (m : Memory) (a : Nat) (v : Elem) : (m.write a v).read a = some v := by
  simp [Memory.read_write]

theorem Memory.read_write_other (m : Memory) {a b : Nat} (v : Elem) (h : b ≠ a) :
    (m.write a v).read b = m.read b := by
  simp [Memory.read_write, h]

@[simp] theorem Memory.writeAll_nil (m : Memory) : m.writeAll [] = m := rfl

@[simp] theorem Memory.writeAll_cons (m : Memory) (e : Nat × Elem) (es : List (Nat × Elem)) :
    m.writeAll (e :: es) = (m.write e.1 e.2).writeAll es := rfl

/-- An index that no write names reads as before. -/
theorem Memory.read_writeAll_other (es : List (Nat × Elem)) (m : Memory) (b : Nat) (h : ∀ e ∈ es, e.1 ≠ b) :
    (m.writeAll es).read b = m.read b := by
  induction es generalizing m with
  | nil => rfl
  | cons e es ih =>
    rw [Memory.writeAll_cons, ih _ fun x hx => h x (List.mem_cons_of_mem _ hx),
      Memory.read_write_other _ _ fun hb => h e (List.mem_cons_self ..) hb.symm]

/-- An index that is written, always with the same value, reads as that value. -/
theorem Memory.read_writeAll_mem (es : List (Nat × Elem)) (m : Memory) (b : Nat) (v : Elem)
    (hm : (b, v) ∈ es) (hu : ∀ e ∈ es, e.1 = b → e.2 = v) : (m.writeAll es).read b = some v := by
  induction es generalizing m with
  | nil => cases hm
  | cons e es ih =>
    rw [Memory.writeAll_cons]
    by_cases hin : (b, v) ∈ es
    · exact ih _ hin fun x hx => hu x (List.mem_cons_of_mem _ hx)
    · have he : e = (b, v) := by
        rcases List.mem_cons.1 hm with h | h
        · exact h.symm
        · exact absurd h hin
      subst he
      by_cases hex : ∃ x ∈ es, x.1 = b
      · obtain ⟨⟨x1, x2⟩, hx, hxb⟩ := hex
        obtain rfl : x1 = b := hxb
        obtain rfl : x2 = v := hu _ (List.mem_cons_of_mem _ hx) rfl
        exact absurd hx hin
      · rw [Memory.read_writeAll_other es _ b fun x hx hb => hex ⟨x, hx, hb⟩, Memory.read_write_self]

/-! ### Canonical form -/

theorem Memory.mem_write {m : Memory} {a : Nat} {v : Elem} {p : Nat × Elem} (h : p ∈ m.write a v) :
    p = (a, v) ∨ p ∈ m := by
  induction m with
  | nil => simpa [Memory.write] using h
  | cons q m ih =>
    obtain ⟨k, x⟩ := q
    simp only [Memory.write] at h
    split at h
    · simpa using h
    · split at h
      · rcases List.mem_cons.1 h with h | h
        · exact .inl h
        · exact .inr (List.mem_cons_of_mem _ h)
      · rcases List.mem_cons.1 h with h | h
        · exact .inr (h ▸ List.mem_cons_self ..)
        · exact (ih h).imp_right (List.mem_cons_of_mem _)

theorem Memory.wf_write {m : Memory} (h : m.wf) (a : Nat) (v : Elem) : (m.write a v).wf := by
  induction m with
  | nil => simp [Memory.write]
  | cons p m ih =>
    obtain ⟨k, x⟩ := p
    obtain ⟨hk, hm⟩ := List.pairwise_cons.1 h
    simp only [Memory.write]
    split
    · next hlt =>
      refine List.pairwise_cons.2 ⟨fun q hq => ?_, h⟩
      rcases List.mem_cons.1 hq with rfl | hq
      · exact hlt
      · exact Nat.lt_trans hlt (hk q hq)
    · split
      · next he => subst he; exact List.pairwise_cons.2 ⟨hk, hm⟩
      · refine List.pairwise_cons.2 ⟨fun q hq => ?_, ih hm⟩
        rcases Memory.mem_write hq with rfl | hq
        · show k < a; omega
        · exact hk q hq

theorem Memory.wf_writeAll (es : List (Nat × Elem)) {m : Memory} (h : m.wf) : (m.writeAll es).wf := by
  induction es generalizing m with
  | nil => exact h
  | cons e es ih => exact ih (Memory.wf_write h e.1 e.2)

/-- A write of an index below n keeps every listed index below n. -/
theorem Memory.range_write {m : Memory} {n a : Nat} (h : ∀ p ∈ m, p.1 < n) (ha : a < n) (v : Elem) :
    ∀ p ∈ m.write a v, p.1 < n := fun p hp =>
  (Memory.mem_write hp).elim (fun e => e ▸ ha) (h p)

theorem Memory.range_writeAll (es : List (Nat × Elem)) {m : Memory} {n : Nat} (h : ∀ p ∈ m, p.1 < n)
    (he : ∀ e ∈ es, e.1 < n) : ∀ p ∈ m.writeAll es, p.1 < n := by
  induction es generalizing m with
  | nil => exact h
  | cons e es ih =>
    exact ih (Memory.range_write h (he e (List.mem_cons_self ..)) e.2) fun x hx => he x (List.mem_cons_of_mem _ hx)

/-! ### Free values of an aborted region -/

/-- An abort writes inside its region only. -/
theorem freeWrites_index {base ctr n : Nat} {e : Nat × Elem} (h : e ∈ freeWrites base ctr n) :
    base ≤ e.1 ∧ e.1 < base + n := by
  induction n generalizing base ctr with
  | zero => simp [freeWrites] at h
  | succ n ih =>
    rcases List.mem_cons.1 h with rfl | h
    · simp
    · have := ih h; omega

/-- The t-th element of an aborted region holds the t-th free value. -/
theorem read_freeWrites (m : Memory) (base ctr n t : Nat) (h : t < n) :
    (m.writeAll (freeWrites base ctr n)).read (base + t) = some (Config.unspecifiedElem (ctr + t)) := by
  induction n generalizing m base ctr t with
  | zero => omega
  | succ n ih =>
    rw [freeWrites, Memory.writeAll_cons]
    cases t with
    | zero =>
      rw [Memory.read_writeAll_other _ _ _ fun e he => by have := freeWrites_index he; omega]
      simp [Memory.read_write]
    | succ t =>
      have := ih (m.write base (Config.unspecifiedElem ctr)) (base + 1) (ctr + 1) t (by omega)
      rwa [show base + 1 + t = base + (t + 1) by omega, show ctr + 1 + t = ctr + (t + 1) by omega] at this

end Sys2Proof.Machine
end

