-- ==== Sys2Proof/Laws/State.lean ====
section
/-! SUPPORT. One lemma per field and update of State and of STATUS, so that no later proof unfolds a record update. -/

namespace Sys2Proof.Machine

/-! ### Issue -/

@[simp] theorem State.issue_idReg (s : State) (w : Word) : (s.issue w).idReg = s.idReg := rfl
@[simp] theorem State.issue_ie (s : State) (w : Word) : (s.issue w).ie = s.ie := rfl
@[simp] theorem State.issue_q (s : State) (w : Word) : (s.issue w).q = s.q := rfl
@[simp] theorem State.issue_sigma (s : State) (w : Word) : (s.issue w).sigma = s.sigma := rfl
@[simp] theorem State.issue_status (s : State) (w : Word) : (s.issue w).status = s.status.onIssue := rfl
@[simp] theorem State.issue_cmdLast (s : State) (w : Word) : (s.issue w).cmdLast = w := rfl
@[simp] theorem State.issue_descs (s : State) (w : Word) : (s.issue w).descs = s.descs := rfl
@[simp] theorem State.issue_inflight (s : State) (w : Word) : (s.issue w).inflight = some { word := w, dsnap := s.descs, q := s.q, sigma := s.sigma, draws := [] } := rfl
@[simp] theorem State.issue_mem (s : State) (w : Word) : (s.issue w).mem = s.mem := rfl
@[simp] theorem State.issue_memWords (s : State) (w : Word) : (s.issue w).memWords = s.memWords := rfl
@[simp] theorem State.issue_rstN (s : State) (w : Word) : (s.issue w).rstN = s.rstN := rfl
@[simp] theorem State.issue_entropy (s : State) (w : Word) : (s.issue w).entropy = s.entropy := rfl
@[simp] theorem State.issue_sched (s : State) (w : Word) : (s.issue w).sched = s.sched := rfl
@[simp] theorem State.issue_rdata (s : State) (w : Word) : (s.issue w).rdata = s.rdata := rfl
@[simp] theorem State.issue_freeCtr (s : State) (w : Word) : (s.issue w).freeCtr = s.freeCtr := rfl

/-! ### Completion -/

@[simp] theorem State.complete_idReg (s : State) (code : ErrCode) (fx : Effects) : (s.complete code fx).idReg = s.idReg := rfl
@[simp] theorem State.complete_ie (s : State) (code : ErrCode) (fx : Effects) : (s.complete code fx).ie = s.ie := rfl
@[simp] theorem State.complete_q (s : State) (code : ErrCode) (fx : Effects) : (s.complete code fx).q = s.q := rfl
@[simp] theorem State.complete_sigma (s : State) (code : ErrCode) (fx : Effects) : (s.complete code fx).sigma = s.sigma := rfl
@[simp] theorem State.complete_status (s : State) (code : ErrCode) (fx : Effects) : (s.complete code fx).status = s.status.onCompletion code := rfl
@[simp] theorem State.complete_cmdLast (s : State) (code : ErrCode) (fx : Effects) : (s.complete code fx).cmdLast = s.cmdLast := rfl
@[simp] theorem State.complete_descs (s : State) (code : ErrCode) (fx : Effects) : (s.complete code fx).descs = if code = .ok then writeShape s.descs fx.shape else s.descs := rfl
@[simp] theorem State.complete_inflight (s : State) (code : ErrCode) (fx : Effects) : (s.complete code fx).inflight = none := rfl
@[simp] theorem State.complete_mem (s : State) (code : ErrCode) (fx : Effects) : (s.complete code fx).mem = if code = .ok then s.mem.writeAll fx.elems else s.mem := rfl
@[simp] theorem State.complete_memWords (s : State) (code : ErrCode) (fx : Effects) : (s.complete code fx).memWords = s.memWords := rfl
@[simp] theorem State.complete_rstN (s : State) (code : ErrCode) (fx : Effects) : (s.complete code fx).rstN = s.rstN := rfl
@[simp] theorem State.complete_entropy (s : State) (code : ErrCode) (fx : Effects) : (s.complete code fx).entropy = s.entropy := rfl
@[simp] theorem State.complete_sched (s : State) (code : ErrCode) (fx : Effects) : (s.complete code fx).sched = s.sched := rfl
@[simp] theorem State.complete_rdata (s : State) (code : ErrCode) (fx : Effects) : (s.complete code fx).rdata = s.rdata := rfl
@[simp] theorem State.complete_freeCtr (s : State) (code : ErrCode) (fx : Effects) : (s.complete code fx).freeCtr = s.freeCtr := rfl

/-! ### An accepted read -/

@[simp] theorem State.answer_idReg (s : State) (w : Word) : (s.answer w).idReg = s.idReg := rfl
@[simp] theorem State.answer_ie (s : State) (w : Word) : (s.answer w).ie = s.ie := rfl
@[simp] theorem State.answer_q (s : State) (w : Word) : (s.answer w).q = s.q := rfl
@[simp] theorem State.answer_sigma (s : State) (w : Word) : (s.answer w).sigma = s.sigma := rfl
@[simp] theorem State.answer_status (s : State) (w : Word) : (s.answer w).status = s.status := rfl
@[simp] theorem State.answer_cmdLast (s : State) (w : Word) : (s.answer w).cmdLast = s.cmdLast := rfl
@[simp] theorem State.answer_descs (s : State) (w : Word) : (s.answer w).descs = s.descs := rfl
@[simp] theorem State.answer_inflight (s : State) (w : Word) : (s.answer w).inflight = s.inflight := rfl
@[simp] theorem State.answer_mem (s : State) (w : Word) : (s.answer w).mem = s.mem := rfl
@[simp] theorem State.answer_memWords (s : State) (w : Word) : (s.answer w).memWords = s.memWords := rfl
@[simp] theorem State.answer_rstN (s : State) (w : Word) : (s.answer w).rstN = s.rstN := rfl
@[simp] theorem State.answer_entropy (s : State) (w : Word) : (s.answer w).entropy = s.entropy := rfl
@[simp] theorem State.answer_sched (s : State) (w : Word) : (s.answer w).sched = s.sched := rfl
@[simp] theorem State.answer_rdata (s : State) (w : Word) : (s.answer w).rdata = some w := rfl
@[simp] theorem State.answer_freeCtr (s : State) (w : Word) : (s.answer w).freeCtr = s.freeCtr := rfl

/-! ### A rejected read -/

@[simp] theorem State.rejectRead_idReg (s : State) : (s.rejectRead).idReg = s.idReg := rfl
@[simp] theorem State.rejectRead_ie (s : State) : (s.rejectRead).ie = s.ie := rfl
@[simp] theorem State.rejectRead_q (s : State) : (s.rejectRead).q = s.q := rfl
@[simp] theorem State.rejectRead_sigma (s : State) : (s.rejectRead).sigma = s.sigma := rfl
@[simp] theorem State.rejectRead_status (s : State) : (s.rejectRead).status = s.status.onRejectedAccess := rfl
@[simp] theorem State.rejectRead_cmdLast (s : State) : (s.rejectRead).cmdLast = s.cmdLast := rfl
@[simp] theorem State.rejectRead_descs (s : State) : (s.rejectRead).descs = s.descs := rfl
@[simp] theorem State.rejectRead_inflight (s : State) : (s.rejectRead).inflight = s.inflight := rfl
@[simp] theorem State.rejectRead_mem (s : State) : (s.rejectRead).mem = s.mem := rfl
@[simp] theorem State.rejectRead_memWords (s : State) : (s.rejectRead).memWords = s.memWords := rfl
@[simp] theorem State.rejectRead_rstN (s : State) : (s.rejectRead).rstN = s.rstN := rfl
@[simp] theorem State.rejectRead_entropy (s : State) : (s.rejectRead).entropy = s.entropy := rfl
@[simp] theorem State.rejectRead_sched (s : State) : (s.rejectRead).sched = s.sched := rfl
@[simp] theorem State.rejectRead_rdata (s : State) : (s.rejectRead).rdata = some 0#32 := rfl
@[simp] theorem State.rejectRead_freeCtr (s : State) : (s.rejectRead).freeCtr = s.freeCtr := rfl

/-! ### A rejected write -/

@[simp] theorem State.rejectWrite_idReg (s : State) : (s.rejectWrite).idReg = s.idReg := rfl
@[simp] theorem State.rejectWrite_ie (s : State) : (s.rejectWrite).ie = s.ie := rfl
@[simp] theorem State.rejectWrite_q (s : State) : (s.rejectWrite).q = s.q := rfl
@[simp] theorem State.rejectWrite_sigma (s : State) : (s.rejectWrite).sigma = s.sigma := rfl
@[simp] theorem State.rejectWrite_status (s : State) : (s.rejectWrite).status = s.status.onRejectedAccess := rfl
@[simp] theorem State.rejectWrite_cmdLast (s : State) : (s.rejectWrite).cmdLast = s.cmdLast := rfl
@[simp] theorem State.rejectWrite_descs (s : State) : (s.rejectWrite).descs = s.descs := rfl
@[simp] theorem State.rejectWrite_inflight (s : State) : (s.rejectWrite).inflight = s.inflight := rfl
@[simp] theorem State.rejectWrite_mem (s : State) : (s.rejectWrite).mem = s.mem := rfl
@[simp] theorem State.rejectWrite_memWords (s : State) : (s.rejectWrite).memWords = s.memWords := rfl
@[simp] theorem State.rejectWrite_rstN (s : State) : (s.rejectWrite).rstN = s.rstN := rfl
@[simp] theorem State.rejectWrite_entropy (s : State) : (s.rejectWrite).entropy = s.entropy := rfl
@[simp] theorem State.rejectWrite_sched (s : State) : (s.rejectWrite).sched = s.sched := rfl
@[simp] theorem State.rejectWrite_rdata (s : State) : (s.rejectWrite).rdata = none := rfl
@[simp] theorem State.rejectWrite_freeCtr (s : State) : (s.rejectWrite).freeCtr = s.freeCtr := rfl

/-! ### Register reset -/

@[simp] theorem State.resetRegisters_idReg (s : State) : (s.resetRegisters).idReg = s.idReg := rfl
@[simp] theorem State.resetRegisters_ie (s : State) : (s.resetRegisters).ie = false := rfl
@[simp] theorem State.resetRegisters_q (s : State) : (s.resetRegisters).q = 0#16 := rfl
@[simp] theorem State.resetRegisters_sigma (s : State) : (s.resetRegisters).sigma = 0#16 := rfl
@[simp] theorem State.resetRegisters_status (s : State) : (s.resetRegisters).status = Status.reset := rfl
@[simp] theorem State.resetRegisters_cmdLast (s : State) : (s.resetRegisters).cmdLast = 0#32 := rfl
@[simp] theorem State.resetRegisters_descs (s : State) : (s.resetRegisters).descs = Vector.replicate 16 Desc.reset := rfl
@[simp] theorem State.resetRegisters_inflight (s : State) : (s.resetRegisters).inflight = none := rfl
@[simp] theorem State.resetRegisters_mem (s : State) : (s.resetRegisters).mem = s.mem := rfl
@[simp] theorem State.resetRegisters_memWords (s : State) : (s.resetRegisters).memWords = s.memWords := rfl
@[simp] theorem State.resetRegisters_rstN (s : State) : (s.resetRegisters).rstN = s.rstN := rfl
@[simp] theorem State.resetRegisters_entropy (s : State) : (s.resetRegisters).entropy = s.entropy := rfl
@[simp] theorem State.resetRegisters_sched (s : State) : (s.resetRegisters).sched = s.sched := rfl
@[simp] theorem State.resetRegisters_rdata (s : State) : (s.resetRegisters).rdata = s.rdata := rfl
@[simp] theorem State.resetRegisters_freeCtr (s : State) : (s.resetRegisters).freeCtr = s.freeCtr := rfl

/-! ### Power-on reset -/

@[simp] theorem State.powerOnReset_idReg (s : State) : (s.powerOnReset).idReg = s.idReg := rfl
@[simp] theorem State.powerOnReset_ie (s : State) : (s.powerOnReset).ie = false := rfl
@[simp] theorem State.powerOnReset_q (s : State) : (s.powerOnReset).q = 0#16 := rfl
@[simp] theorem State.powerOnReset_sigma (s : State) : (s.powerOnReset).sigma = 0#16 := rfl
@[simp] theorem State.powerOnReset_status (s : State) : (s.powerOnReset).status = Status.reset := rfl
@[simp] theorem State.powerOnReset_cmdLast (s : State) : (s.powerOnReset).cmdLast = 0#32 := rfl
@[simp] theorem State.powerOnReset_descs (s : State) : (s.powerOnReset).descs = Vector.replicate 16 Desc.reset := rfl
@[simp] theorem State.powerOnReset_inflight (s : State) : (s.powerOnReset).inflight = none := rfl
@[simp] theorem State.powerOnReset_mem (s : State) : (s.powerOnReset).mem = [] := rfl
@[simp] theorem State.powerOnReset_memWords (s : State) : (s.powerOnReset).memWords = s.memWords := rfl
@[simp] theorem State.powerOnReset_rstN (s : State) : (s.powerOnReset).rstN = s.rstN := rfl
@[simp] theorem State.powerOnReset_entropy (s : State) : (s.powerOnReset).entropy = s.entropy := rfl
@[simp] theorem State.powerOnReset_sched (s : State) : (s.powerOnReset).sched = s.sched := rfl
@[simp] theorem State.powerOnReset_rdata (s : State) : (s.powerOnReset).rdata = none := rfl
@[simp] theorem State.powerOnReset_freeCtr (s : State) : (s.powerOnReset).freeCtr = s.freeCtr := rfl

/-! ### An accepted write -/

@[simp] theorem State.writeTarget_idReg (s : State) (w : Word) (t : Target) : (s.writeTarget w t).idReg = (s.writeEffect w t).idReg := rfl
@[simp] theorem State.writeTarget_ie (s : State) (w : Word) (t : Target) : (s.writeTarget w t).ie = (s.writeEffect w t).ie := rfl
@[simp] theorem State.writeTarget_q (s : State) (w : Word) (t : Target) : (s.writeTarget w t).q = (s.writeEffect w t).q := rfl
@[simp] theorem State.writeTarget_sigma (s : State) (w : Word) (t : Target) : (s.writeTarget w t).sigma = (s.writeEffect w t).sigma := rfl
@[simp] theorem State.writeTarget_status (s : State) (w : Word) (t : Target) : (s.writeTarget w t).status = (s.writeEffect w t).status := rfl
@[simp] theorem State.writeTarget_cmdLast (s : State) (w : Word) (t : Target) : (s.writeTarget w t).cmdLast = (s.writeEffect w t).cmdLast := rfl
@[simp] theorem State.writeTarget_descs (s : State) (w : Word) (t : Target) : (s.writeTarget w t).descs = (s.writeEffect w t).descs := rfl
@[simp] theorem State.writeTarget_inflight (s : State) (w : Word) (t : Target) : (s.writeTarget w t).inflight = (s.writeEffect w t).inflight := rfl
@[simp] theorem State.writeTarget_mem (s : State) (w : Word) (t : Target) : (s.writeTarget w t).mem = (s.writeEffect w t).mem := rfl
@[simp] theorem State.writeTarget_memWords (s : State) (w : Word) (t : Target) : (s.writeTarget w t).memWords = (s.writeEffect w t).memWords := rfl
@[simp] theorem State.writeTarget_rstN (s : State) (w : Word) (t : Target) : (s.writeTarget w t).rstN = (s.writeEffect w t).rstN := rfl
@[simp] theorem State.writeTarget_entropy (s : State) (w : Word) (t : Target) : (s.writeTarget w t).entropy = (s.writeEffect w t).entropy := rfl
@[simp] theorem State.writeTarget_sched (s : State) (w : Word) (t : Target) : (s.writeTarget w t).sched = (s.writeEffect w t).sched := rfl
@[simp] theorem State.writeTarget_rdata (s : State) (w : Word) (t : Target) : (s.writeTarget w t).rdata = none := rfl
@[simp] theorem State.writeTarget_freeCtr (s : State) (w : Word) (t : Target) : (s.writeTarget w t).freeCtr = (s.writeEffect w t).freeCtr := rfl

/-! ### STATUS at issue -/

@[simp] theorem Status.onIssue_busy (st : Status) : (st.onIssue).busy = true := rfl
@[simp] theorem Status.onIssue_done (st : Status) : (st.onIssue).done = false := rfl
@[simp] theorem Status.onIssue_cmdovr (st : Status) : (st.onIssue).cmdovr = st.cmdovr := rfl
@[simp] theorem Status.onIssue_accerr (st : Status) : (st.onIssue).accerr = st.accerr := rfl
@[simp] theorem Status.onIssue_err (st : Status) : (st.onIssue).err = 0#4 := rfl

/-! ### STATUS at completion -/

@[simp] theorem Status.onCompletion_busy (st : Status) (code : ErrCode) : (st.onCompletion code).busy = false := rfl
@[simp] theorem Status.onCompletion_done (st : Status) (code : ErrCode) : (st.onCompletion code).done = true := rfl
@[simp] theorem Status.onCompletion_cmdovr (st : Status) (code : ErrCode) : (st.onCompletion code).cmdovr = st.cmdovr := rfl
@[simp] theorem Status.onCompletion_accerr (st : Status) (code : ErrCode) : (st.onCompletion code).accerr = st.accerr := rfl
@[simp] theorem Status.onCompletion_err (st : Status) (code : ErrCode) : (st.onCompletion code).err = code.bits := rfl

/-! ### STATUS at a rejected access -/

@[simp] theorem Status.onRejectedAccess_busy (st : Status) : (st.onRejectedAccess).busy = st.busy := rfl
@[simp] theorem Status.onRejectedAccess_done (st : Status) : (st.onRejectedAccess).done = st.done := rfl
@[simp] theorem Status.onRejectedAccess_cmdovr (st : Status) : (st.onRejectedAccess).cmdovr = st.cmdovr := rfl
@[simp] theorem Status.onRejectedAccess_accerr (st : Status) : (st.onRejectedAccess).accerr = true := rfl
@[simp] theorem Status.onRejectedAccess_err (st : Status) : (st.onRejectedAccess).err = st.err := rfl

/-! ### STATUS at a dropped command -/

@[simp] theorem Status.onCommandOverrun_busy (st : Status) : (st.onCommandOverrun).busy = st.busy := rfl
@[simp] theorem Status.onCommandOverrun_done (st : Status) : (st.onCommandOverrun).done = st.done := rfl
@[simp] theorem Status.onCommandOverrun_cmdovr (st : Status) : (st.onCommandOverrun).cmdovr = true := rfl
@[simp] theorem Status.onCommandOverrun_accerr (st : Status) : (st.onCommandOverrun).accerr = st.accerr := rfl
@[simp] theorem Status.onCommandOverrun_err (st : Status) : (st.onCommandOverrun).err = st.err := rfl

/-! ### STATUS at a W1C write -/

@[simp] theorem Status.writeOneToClear_busy (st : Status) (w : Word) : (st.writeOneToClear w).busy = st.busy := rfl
@[simp] theorem Status.writeOneToClear_done (st : Status) (w : Word) : (st.writeOneToClear w).done = (st.done && !w.getLsbD 1) := rfl
@[simp] theorem Status.writeOneToClear_cmdovr (st : Status) (w : Word) : (st.writeOneToClear w).cmdovr = (st.cmdovr && !w.getLsbD 2) := rfl
@[simp] theorem Status.writeOneToClear_accerr (st : Status) (w : Word) : (st.writeOneToClear w).accerr = (st.accerr && !w.getLsbD 3) := rfl
@[simp] theorem Status.writeOneToClear_err (st : Status) (w : Word) : (st.writeOneToClear w).err = st.err := rfl

/-! ### STATUS after reset -/

@[simp] theorem Status.reset_busy : Status.reset.busy = false := rfl
@[simp] theorem Status.reset_done : Status.reset.done = false := rfl
@[simp] theorem Status.reset_cmdovr : Status.reset.cmdovr = false := rfl
@[simp] theorem Status.reset_accerr : Status.reset.accerr = false := rfl
@[simp] theorem Status.reset_err : Status.reset.err = 0#4 := rfl

end Sys2Proof.Machine
end

