-- ==== Sys2Proof/Laws/Completion.lean ====
section
/-! SUPPORT. What the shared operations of a command can do: its effects, its completion, its checks, and the
inversion of exec. -/

namespace Sys2Proof.Machine

/-! ### Index pairs and collected values -/

@[simp] theorem mem_entries {r c : Nat} {p : Nat × Nat} : p ∈ entries r c ↔ p.1 < r ∧ p.2 < c := by
  obtain ⟨i, j⟩ := p
  simp only [entries, List.mem_flatMap, List.mem_map, List.mem_range, Prod.mk.injEq]
  constructor
  · rintro ⟨i', hi, j', hj, rfl, rfl⟩; exact ⟨hi, hj⟩
  · rintro ⟨hi, hj⟩; exact ⟨i, hi, j, hj, rfl, rfl⟩

theorem collect_map_some {α β : Type} {f : α → Option β} {g : α → β} {l : List α}
    (h : ∀ x ∈ l, f x = some (g x)) : collect (l.map f) = some (l.map g) := by
  induction l with
  | nil => rfl
  | cons x l ih =>
    rw [List.map_cons, h x (List.mem_cons_self ..), collect, ih fun y hy => h y (List.mem_cons_of_mem _ hy)]
    rfl

theorem collect_eq_some {α : Type} {l : List (Option α)} {xs : List α} (h : collect l = some xs) :
    l = xs.map some := by
  induction l generalizing xs with
  | nil => cases h; rfl
  | cons o l ih =>
    cases o with
    | none => cases h
    | some x =>
      obtain ⟨ys, hys, rfl⟩ := Option.map_eq_some_iff.1 h
      rw [ih hys]; rfl

theorem collect_eq_none {α : Type} {l : List (Option α)} (h : none ∈ l) : collect l = none := by
  cases hc : collect l with
  | none => rfl
  | some xs => rw [collect_eq_some hc] at h; simp at h

/-- Row-major indices of different entries differ. -/
theorem rowMajor_inj {c i j i' j' : Nat} (hj : j < c) (hj' : j' < c) (h : i * c + j = i' * c + j') :
    i = i' ∧ j = j' := by
  have hi : i = i' := by
    rcases Nat.lt_trichotomy i i' with hlt | rfl | hlt
    · have := Nat.mul_le_mul_right c (Nat.succ_le_of_lt hlt)
      rw [Nat.succ_mul] at this; omega
    · rfl
    · have := Nat.mul_le_mul_right c (Nat.succ_le_of_lt hlt)
      rw [Nat.succ_mul] at this; omega
  subst hi; exact ⟨rfl, by omega⟩

/-- A row-major index lies below rows times columns. -/
theorem rowMajor_lt {r c i j : Nat} (hi : i < r) (hj : j < c) : i * c + j < r * c := by
  have := Nat.mul_le_mul_right c (Nat.succ_le_of_lt hi)
  rw [Nat.succ_mul] at this; omega

/-! ### Matrix effects -/

/-- The effects of a command all of whose entries have a value. -/
theorem matrixEffects_some {fl : Inflight} {d : DescIdx} {r c : Nat} {entry : Nat → Nat → Option Elem}
    {val : Nat → Nat → Elem} (h : ∀ i j, i < r → j < c → entry i j = some (val i j)) :
    matrixEffects fl d r c entry = some
      { elems := (entries r c).map fun p => ((fl.snap d).base.toNat + p.1 * c + p.2, val p.1 p.2)
        shape := some (d, BitVec.ofNat 16 r, BitVec.ofNat 16 c) } := by
  rw [matrixEffects, collect_map_some
    (g := fun p => ((fl.snap d).base.toNat + p.1 * c + p.2, val p.1 p.2))]
  · rfl
  · rintro ⟨i, j⟩ hp
    have hp := mem_entries.1 hp
    simp [h i j hp.1 hp.2]

/-- An entry without a value leaves the command without effects. -/
theorem matrixEffects_none {fl : Inflight} {d : DescIdx} {r c i j : Nat} {entry : Nat → Nat → Option Elem}
    (hi : i < r) (hj : j < c) (h : entry i j = none) : matrixEffects fl d r c entry = none := by
  rw [matrixEffects, collect_eq_none, Option.map_none]
  exact List.mem_map.2 ⟨(i, j), mem_entries.2 ⟨hi, hj⟩, by simp [h]⟩

/-- Where matrix effects may write: the destination region, and the shape of the destination. -/
structure EffectsWithin (fx : Effects) (d : DescIdx) (base r c : Nat) : Prop where
  elems : ∀ e ∈ fx.elems, base ≤ e.1 ∧ e.1 < base + r * c
  shape : fx.shape = some (d, BitVec.ofNat 16 r, BitVec.ofNat 16 c)

theorem matrixEffects_within {fl : Inflight} {d : DescIdx} {r c : Nat} {entry : Nat → Nat → Option Elem}
    {fx : Effects} (h : matrixEffects fl d r c entry = some fx) :
    EffectsWithin fx d (fl.snap d).base.toNat r c := by
  obtain ⟨es, hes, rfl⟩ := Option.map_eq_some_iff.1 h
  refine ⟨fun e he => ?_, rfl⟩
  have hmem : some e ∈ es.map some := List.mem_map.2 ⟨e, he, rfl⟩
  rw [← collect_eq_some hes] at hmem
  obtain ⟨⟨i, j⟩, hp, hij⟩ := List.mem_map.1 hmem
  obtain ⟨v, -, rfl⟩ := Option.map_eq_some_iff.1 hij
  have hp := mem_entries.1 hp
  have := rowMajor_lt hp.1 hp.2
  dsimp only at *; omega

theorem gsampResult_within (fl : Inflight) (d : DescIdx) (size : Nat) :
    EffectsWithin (gsampResult fl d size) d (fl.snap d).base.toNat size 1 := by
  refine ⟨fun e he => ?_, rfl⟩
  have := gaussWrites_index he
  have hl := List.length_take_le size fl.draws
  omega

/-! ### Shape writes -/

@[simp] theorem writeShape_none (ds : Vector Desc 16) : writeShape ds none = ds := rfl

theorem writeShape_self (ds : Vector Desc 16) (d : DescIdx) (r c : BitVec 16) :
    (writeShape ds (some (d, r, c)))[d] = { base := ds[d].base, rows := r, cols := c } := by
  simp [writeShape]

theorem writeShape_other (ds : Vector Desc 16) {d k : DescIdx} (r c : BitVec 16) (h : k ≠ d) :
    (writeShape ds (some (d, r, c)))[k] = ds[k] := by
  simp only [writeShape]
  exact Vector.getElem_set_ne _ _ (fun hv => h (Fin.ext hv.symm))

/-! ### Completion -/

/-- No completion writes what `CommandFrame` lists. -/
theorem complete_frame (s : State) (code : ErrCode) (fx : Effects) : CommandFrame s (s.complete code fx) := by
  constructor <;> rfl

/-- A command error, in full. -/
theorem raiseError_eq (s : State) {code : ErrCode} (h : code ≠ .ok) : s.raiseError code = endedWith s code.bits := by
  simp [State.raiseError, State.complete, endedWith, h, Status.onCompletion]

/-- A successful command leaves every element outside its destination region unchanged. -/
theorem complete_outside (s : State) {fx : Effects} {d : DescIdx} {base r c : Nat}
    (h : EffectsWithin fx d base r c) {x : Nat} (hx : x < base ∨ base + r * c ≤ x) :
    (s.complete .ok fx).mem.read x = s.mem.read x := by
  rw [State.complete_mem, if_pos rfl, Memory.read_writeAll_other]
  intro e he hex
  have := h.elems e he
  omega

/-- A successful command with a full result matrix. -/
theorem complete_matrix (s : State) (fl : Inflight) (d : DescIdx) (r c : Nat) (val : Nat → Nat → Elem) :
    CompletedWith s (s.complete .ok
      { elems := (entries r c).map fun p => ((fl.snap d).base.toNat + p.1 * c + p.2, val p.1 p.2)
        shape := some (d, BitVec.ofNat 16 r, BitVec.ofNat 16 c) })
      d (fl.snap d).base.toNat r c val where
  frame := complete_frame ..
  busy := rfl
  done := rfl
  err := rfl
  idle := rfl
  result := fun i j hi hj => by
    rw [State.complete_mem, if_pos rfl]
    refine Memory.read_writeAll_mem _ _ _ _
      (List.mem_map.2 ⟨(i, j), mem_entries.2 ⟨hi, hj⟩, rfl⟩) fun e he heq => ?_
    obtain ⟨⟨i', j'⟩, hp, rfl⟩ := List.mem_map.1 he
    have hp := mem_entries.1 hp
    have heq : (fl.snap d).base.toNat + i' * c + j' = (fl.snap d).base.toNat + i * c + j := heq
    obtain ⟨rfl, rfl⟩ := rowMajor_inj hp.2 hj (by dsimp only at *; omega : i' * c + j' = i * c + j)
    rfl
  outside := fun x hx => by
    refine complete_outside (d := d) s ⟨fun e he => ?_, rfl⟩ hx
    obtain ⟨⟨i', j'⟩, hp, rfl⟩ := List.mem_map.1 he
    have hp := mem_entries.1 hp
    have := rowMajor_lt hp.1 hp.2
    dsimp only at *; omega
  shape := writeShape_self ..
  others := fun _ hk => writeShape_other _ _ _ hk

/-- The command succeeds with the matrix of the values of its entries. -/
theorem succeed_matrix (s : State) {fl : Inflight} {d : DescIdx} {r c : Nat} {entry : Nat → Nat → Option Elem}
    {val : Nat → Nat → Elem} (h : ∀ i j, i < r → j < c → entry i j = some (val i j)) :
    ∃ t, s.succeed (matrixEffects fl d r c entry) = .next t ∧
      CompletedWith s t d (fl.snap d).base.toNat r c val := by
  rw [matrixEffects_some h]
  exact ⟨_, rfl, complete_matrix s fl d r c val⟩

/-- What `succeed` can answer with a next state. -/
theorem succeed_next {s t : State} {fx? : Option Effects} (h : s.succeed fx? = .next t) :
    ∃ fx, fx? = some fx ∧ t = s.complete .ok fx := by
  cases fx? with
  | none => cases h
  | some fx => cases h; exact ⟨fx, rfl, rfl⟩

/-! ### Checks -/

/-- With nothing in flight the state stays. -/
theorem runChecked_idle {s : State} {i : Instr} {rule : Inflight → StepOutcome} (h : s.inflight = none) :
    s.runChecked i rule = .next s := by
  simp [State.runChecked, h]

/-- With its checks passed a command follows its own rule. -/
theorem runChecked_ok {s : State} {i : Instr} {rule : Inflight → StepOutcome} {fl : Inflight}
    (h : s.inflight = some fl) (hc : checks i fl s.memWords = .ok) : s.runChecked i rule = rule fl := by
  simp [State.runChecked, h, hc]

/-- With a failed check a command ends with the code of that check. -/
theorem runChecked_error {s : State} {i : Instr} {rule : Inflight → StepOutcome} {fl : Inflight}
    (h : s.inflight = some fl) (hc : checks i fl s.memWords ≠ .ok) :
    s.runChecked i rule = .next (endedWith s (checks i fl s.memWords).bits) := by
  rw [← raiseError_eq s hc]
  simp only [State.runChecked, h]

/-- Everything `runChecked` can answer with a next state. -/
theorem runChecked_next {s t : State} {i : Instr} {rule : Inflight → StepOutcome}
    (h : s.runChecked i rule = .next t) :
    (s.inflight = none ∧ t = s) ∨
    (∃ fl, s.inflight = some fl ∧ checks i fl s.memWords ≠ .ok ∧
      t = endedWith s (checks i fl s.memWords).bits) ∨
    (∃ fl, s.inflight = some fl ∧ checks i fl s.memWords = .ok ∧ rule fl = .next t) := by
  cases hf : s.inflight with
  | none => rw [runChecked_idle hf] at h; cases h; exact .inl ⟨rfl, rfl⟩
  | some fl =>
    by_cases hc : checks i fl s.memWords = .ok
    · rw [runChecked_ok hf hc] at h; exact .inr (.inr ⟨fl, rfl, hc, h⟩)
    · rw [runChecked_error hf hc] at h; cases h; exact .inr (.inl ⟨fl, rfl, hc, rfl⟩)

/-- The checks pass exactly when each of them passes. -/
theorem checks_eq_ok {i : Instr} {fl : Inflight} {n : Nat} :
    checks i fl n = .ok ↔
      (usesModulus i = true → 2 ≤ fl.q.toNat) ∧ (usesSigma i = true → fl.sigma ≠ 0#16) ∧
      shapeOk i fl = true ∧ boundsOk i fl n = true := by
  simp only [checks]
  split
  · next h => simp at h; simp [h.1]; omega
  · next h =>
    split
    · next h2 => simp at h h2; simp; intros; simp_all
    · next h2 =>
      split
      · next h3 => simp at h3; simp [h3]
      · next h3 =>
        split
        · next h4 => simp at h4; simp [h4]
        · next h4 => simp at h h2 h3 h4; simp [h3, h4]; exact ⟨h, h2⟩

/-- A destination region that passed the bounds check lies in memory. -/
theorem destInBounds_of_checks {i : Instr} {fl : Inflight} {n base k : Nat} (h : checks i fl n = .ok)
    (hd : destRegion i fl = some (base, k)) : base + k ≤ n := by
  obtain ⟨-, -, -, hb⟩ := checks_eq_ok.1 h
  simp only [boundsOk, destInBounds, hd, regionInBounds, Bool.and_eq_true, decide_eq_true_eq] at hb
  exact hb.2

/-! ### exec -/

/-- Everything that a command which never waits can answer with a next state. -/
theorem checkedSucceed_next {s t : State} {i : Instr} {res : Inflight → Option Effects}
    (h : (s.runChecked i fun fl => s.succeed (res fl)) = .next t) :
    (t = s ∧ s.inflight = none) ∨
    (∃ fl, s.inflight = some fl ∧ checks i fl s.memWords ≠ .ok ∧
      t = endedWith s (checks i fl s.memWords).bits) ∨
    (∃ fl fx, s.inflight = some fl ∧ checks i fl s.memWords = .ok ∧ res fl = some fx ∧ t = s.complete .ok fx) := by
  rcases runChecked_next h with ⟨hf, rfl⟩ | he | ⟨fl, hf, hc, hr⟩
  · exact .inl ⟨rfl, hf⟩
  · exact .inr (.inl he)
  · obtain ⟨fx, hfx, rfl⟩ := succeed_next hr
    exact .inr (.inr ⟨fl, fx, hf, hc, hfx, rfl⟩)

/-- The ways in which exec can answer with a next state. -/
inductive ExecNext (i : Instr) (s t : State) : Prop where
  /-- Nothing is in flight, or a GSAMP waits for a draw that is not offered: the state stays. -/
  | stays (same : t = s) (why : s.inflight = none ∨ s.entropy = [])
  /-- A check failed: the command ends with the code of that check. -/
  | ended (fl : Inflight) (hf : s.inflight = some fl) (hc : checks i fl s.memWords ≠ .ok)
      (ht : t = endedWith s (checks i fl s.memWords).bits)
  /-- A GSAMP takes the next offered draw. -/
  | draw (fl : Inflight) (d : DescIdx) (size : Nat) (z : Word) (rest : List Word) (hi : i = .gsamp d size)
      (hf : s.inflight = some fl) (hc : checks i fl s.memWords = .ok) (hn : fl.draws.length < size)
      (he : s.entropy = z :: rest)
      (ht : t = { s with entropy := rest, inflight := some { fl with draws := fl.draws ++ [z] } })
  /-- NOP succeeds. -/
  | nopDone (fl : Inflight) (hi : i = .nop) (hf : s.inflight = some fl) (ht : t = s.complete .ok noEffects)
  /-- A command with a destination succeeds, with effects inside its destination region. -/
  | done (fl : Inflight) (fx : Effects) (d : DescIdx) (r c : Nat) (hf : s.inflight = some fl)
      (hc : checks i fl s.memWords = .ok) (hr : resultShape i fl = some (d, r, c))
      (hw : EffectsWithin fx d (fl.snap d).base.toNat r c) (ht : t = s.complete .ok fx)

/-- A command whose result is a matrix: from its own form to the cases of `ExecNext`. -/
theorem execNext_of_matrix {s t : State} {i : Instr} {d : DescIdx} {r c : Inflight → Nat}
    {entry : Inflight → Nat → Nat → Option Elem}
    (h : (s.runChecked i fun fl => s.succeed (matrixEffects fl d (r fl) (c fl) (entry fl))) = .next t)
    (hr : ∀ fl, resultShape i fl = some (d, r fl, c fl)) : ExecNext i s t := by
  rcases checkedSucceed_next h with ⟨rfl, hf⟩ | ⟨fl, hf, hc, ht⟩ | ⟨fl, fx, hf, hc, hfx, ht⟩
  · exact .stays rfl (.inl hf)
  · exact .ended fl hf hc ht
  · exact .done fl fx d _ _ hf hc (hr fl) (matrixEffects_within hfx) ht

/-- The inversion of exec. -/
theorem exec_next {i : Instr} {s t : State} (h : exec i s = .next t) : ExecNext i s t := by
  cases i with
  | nop =>
    rcases checkedSucceed_next (s := s) (t := t) (i := .nop) (res := fun _ => some noEffects) h with
      ⟨rfl, hf⟩ | ⟨fl, hf, hc, ht⟩ | ⟨fl, fx, hf, -, hfx, ht⟩
    · exact .stays rfl (.inl hf)
    · exact .ended fl hf hc ht
    · cases hfx; exact .nopDone fl rfl hf ht
  | mmul d a b => exact execNext_of_matrix h fun _ => rfl
  | madd d a b => exact execNext_of_matrix h fun _ => rfl
  | mtrn d a => exact execNext_of_matrix h fun _ => rfl
  | decb d v w => exact execNext_of_matrix h fun _ => rfl
  | gsamp d size =>
    rcases runChecked_next h with ⟨hf, rfl⟩ | ⟨fl, hf, hc, ht⟩ | ⟨fl, hf, hc, hr⟩
    · exact .stays rfl (.inl hf)
    · exact .ended fl hf hc ht
    · split at hr
      · next hlt =>
        unfold State.takeDraw at hr
        split at hr
        · next he => cases hr; exact .stays rfl (.inr he)
        · next z rest he => cases hr; exact .draw fl d size z rest rfl hf hc hlt he rfl
      · cases hr; exact .done fl _ d size 1 hf hc rfl (gsampResult_within ..) rfl

end Sys2Proof.Machine
end

