-- ==== Sys2Proof/Laws/HostBus.lean ====
section
/-! SUPPORT. What a host access and the resets can do. -/

namespace Sys2Proof.Machine

/-! ### Host access -/

/-- The ways in which a host access can answer with a next state. -/
inductive AccessNext (a : Access) (s t : State) : Prop where
  | rejectedRead (hd : a.dir = .read) (hr : a.isAlignedWord = false ∨ s.rejects (targetOf a.off.toNat) = true)
      (ht : t = s.rejectRead)
  | rejectedWrite (w : Word) (hd : a.dir = .write w)
      (hr : a.isAlignedWord = false ∨ s.rejects (targetOf a.off.toNat) = true) (ht : t = s.rejectWrite)
  | answered (w : Word) (hd : a.dir = .read) (ha : a.isAlignedWord = true)
      (hr : s.rejects (targetOf a.off.toNat) = false) (ht : t = s.answer w)
  | written (w : Word) (hd : a.dir = .write w) (ha : a.isAlignedWord = true)
      (hr : s.rejects (targetOf a.off.toNat) = false) (ht : t = s.writeTarget w (targetOf a.off.toNat))

/-- A read that is not rejected answers a value or is a fault of the model. -/
theorem readTarget_next {s t : State} {x : Target} (h : s.readTarget x = .next t) : ∃ w, t = s.answer w := by
  cases x <;> simp only [State.readTarget, State.readWindow] at h
  case mem i => split at h <;> cases h; exact ⟨_, rfl⟩
  all_goals cases h; exact ⟨_, rfl⟩

/-- The inversion of a host access; the block was not held in reset. -/
theorem hostAccess_next {a : Access} {s t : State} (h : hostAccess a s = .next t) :
    s.rstN = true ∧ AccessNext a s t := by
  cases hrst : s.rstN with
  | false => simp [hostAccess, hrst] at h
  | true =>
    refine ⟨rfl, ?_⟩
    cases hd : a.dir with
    | read =>
      simp only [hostAccess, hrst, hd, hostRead, Bool.not_true] at h
      cases ha : a.isAlignedWord <;> cases hr : s.rejects (targetOf a.off.toNat) <;> simp [ha, hr] at h
      · exact .rejectedRead hd (.inl ha) h.symm
      · exact .rejectedRead hd (.inl ha) h.symm
      · obtain ⟨w, rfl⟩ := readTarget_next h
        exact .answered w hd ha hr rfl
      · exact .rejectedRead hd (.inr hr) h.symm
    | write w =>
      simp only [hostAccess, hrst, hd, hostWrite, Bool.not_true] at h
      cases ha : a.isAlignedWord <;> cases hr : s.rejects (targetOf a.off.toNat) <;> simp [ha, hr] at h
      · exact .rejectedWrite w hd (.inl ha) h.symm
      · exact .rejectedWrite w hd (.inl ha) h.symm
      · exact .written w hd ha hr h.symm
      · exact .rejectedWrite w hd (.inr hr) h.symm

/-- A window write that is not rejected lies in range, and the block is not busy. -/
theorem rejects_mem_false {s : State} {i : Nat} (h : s.rejects (.mem i) = false) :
    s.status.busy = false ∧ i < s.memWords := by
  simpa [State.rejects, Target.blockedWhileBusy, Target.outOfRange] using h

/-! ### Offsets -/

@[simp] theorem targetOf_id : targetOf 0x000 = .id := rfl
@[simp] theorem targetOf_ctrl : targetOf 0x004 = .ctrl := rfl
@[simp] theorem targetOf_status : targetOf 0x008 = .status := rfl
@[simp] theorem targetOf_cmd : targetOf 0x00C = .cmd := rfl
@[simp] theorem targetOf_q : targetOf 0x010 = .q := rfl
@[simp] theorem targetOf_sigma : targetOf 0x014 = .sigma := rfl

theorem targetOf_descBase (k : DescIdx) : targetOf (0x100 + 8 * k.val) = .descBase k := by
  revert k; decide

theorem targetOf_descShape (k : DescIdx) : targetOf (0x104 + 8 * k.val) = .descShape k := by
  revert k; decide

theorem targetOf_window (i : Nat) : targetOf (Config.windowBase + 4 * i) = .mem i := by
  have : (Config.windowBase + 4 * i - Config.windowBase) / 4 = i := by omega
  have hw : Config.windowBase = 0x400000 := rfl
  simp only [targetOf, this]
  iterate 7 rw [if_neg (by omega)]
  rw [if_pos (by omega)]

/-! ### Aligned full-word accesses -/

theorem wordAccess_offset {off : Nat} (h : off < 8388608) : (BitVec.ofNat 23 off).toNat = off := by
  rw [BitVec.toNat_ofNat]; exact Nat.mod_eq_of_lt h

theorem isAlignedWord_wordRead {off : Nat} (h : off < 8388608) (ha : off % 4 = 0) :
    (wordRead off).isAlignedWord = true := by
  simp [Access.isAlignedWord, wordRead, Nat.mod_eq_of_lt h, ha]

theorem isAlignedWord_wordWrite {off : Nat} {w : Word} (h : off < 8388608) (ha : off % 4 = 0) :
    (wordWrite off w).isAlignedWord = true := isAlignedWord_wordRead h ha

/-- An aligned full-word read of an offset whose target is known. -/
theorem hostAccess_wordRead {s : State} {off : Nat} {x : Target} (hr : s.rstN = true) (h : off < 8388608)
    (ha : off % 4 = 0) (hx : targetOf off = x) :
    hostAccess (wordRead off) s = if s.rejects x then .next s.rejectRead else s.readTarget x := by
  have ht : targetOf (wordRead off).off.toNat = x := by rw [← hx]; exact congrArg targetOf (wordAccess_offset h)
  have hd : (wordRead off).dir = .read := rfl
  simp only [hostAccess, hr, hd, hostRead, isAlignedWord_wordRead h ha, ht, Bool.not_true, Bool.false_eq_true, if_false]

/-- An aligned full-word write to an offset whose target is known. -/
theorem hostAccess_wordWrite {s : State} {off : Nat} {w : Word} {x : Target} (hr : s.rstN = true) (h : off < 8388608)
    (ha : off % 4 = 0) (hx : targetOf off = x) :
    hostAccess (wordWrite off w) s =
      if s.rejects x then .next s.rejectWrite else .next (s.writeTarget w x) := by
  have ht : targetOf (wordWrite off w).off.toNat = x := by rw [← hx]; exact congrArg targetOf (wordAccess_offset h)
  have hd : (wordWrite off w).dir = .write w := rfl
  simp only [hostAccess, hr, hd, hostWrite, isAlignedWord_wordWrite h ha, ht, Bool.not_true, Bool.false_eq_true,
    if_false]

/-- The only aligned full-word access to a target with one offset is the one at that offset. -/
theorem access_eq_wordWrite {a : Access} {w : Word} {off : Nat} (hd : a.dir = .write w) (ha : a.isAlignedWord = true)
    (ho : a.off.toNat = off) : a = wordWrite off w := by
  obtain ⟨o, be, dir⟩ := a
  obtain rfl : dir = .write w := hd
  simp only [Access.isAlignedWord, Bool.and_eq_true, beq_iff_eq] at ha
  simp only [wordWrite, ha.2, ← ho, BitVec.ofNat_toNat, BitVec.setWidth_eq]

/-! ### Abort and reset -/

/-- An abort changes operand memory and the counter of free values only. -/
theorem abort_eq (s : State) : s.abort = { s with mem := s.abort.mem, freeCtr := s.abort.freeCtr } := by
  unfold State.abort; split <;> rfl

/-- A soft reset: the registers at their reset values, memory as the abort leaves it. -/
theorem softReset_eq (s : State) : s.softReset =
    { s.resetRegisters with mem := s.softReset.mem, freeCtr := s.softReset.freeCtr } := by
  unfold State.softReset
  split
  · rw [abort_eq s]; rfl
  · rfl

/-- Outside the aborted region an abort leaves every element unchanged. -/
theorem abort_outside {s : State} {fl : Inflight} (hf : s.inflight = some fl) {x : Nat}
    (hx : x < (abortedRegion fl s.memWords).1 ∨
      (abortedRegion fl s.memWords).1 + (abortedRegion fl s.memWords).2 ≤ x) :
    s.abort.mem.read x = s.mem.read x := by
  simp only [State.abort, hf]
  refine Memory.read_writeAll_other _ _ _ fun e he hex => ?_
  have := freeWrites_index he
  omega

/-- Inside the aborted region every element holds a free value. -/
theorem abort_inside {s : State} {fl : Inflight} (hf : s.inflight = some fl) {t : Nat}
    (ht : t < (abortedRegion fl s.memWords).2) :
    s.abort.mem.read ((abortedRegion fl s.memWords).1 + t) = some (Config.unspecifiedElem (s.freeCtr + t)) := by
  simp only [State.abort, hf]
  exact read_freeWrites _ _ _ _ _ ht

end Sys2Proof.Machine
end

