-- ==== Sys2Proof/Laws/PerInstr.lean ====
section
/-! SUPPORT. What is said of every command as syntax, one lemma per constructor: the fields of its word
(spec/30_encoding.md R82, R86). -/

namespace Sys2Proof

/-! ### The fields of a word built by the formula of R82 -/

theorem cmd32_toNat {opc imm : Nat} (ho : opc < 16) (hi : imm < 65536) (d a b : DescIdx) :
    (cmd32 opc imm d a b).toNat = opc * 268435456 + imm * 4096 + d.val * 256 + a.val * 16 + b.val := by
  have := d.isLt; have := a.isLt; have := b.isLt
  have him : imm % 2 ^ 16 = imm := by omega
  simp only [cmd32, BitVec.toNat_ofNat, him]; apply Nat.mod_eq_of_lt; omega

/-- A digit between a higher and a lower part. -/
theorem digit_eq {hi mid lo m p : Nat} (hm : mid < m) (hl : lo < p) :
    (hi * m * p + mid * p + lo) / p % m = mid := by
  have hp : 0 < p := by omega
  rw [← Nat.add_mul, Nat.add_comm (_ * _), Nat.add_mul_div_right _ _ hp,
    Nat.div_eq_of_lt hl, Nat.zero_add, Nat.add_comm, Nat.add_mul_mod_self_right, Nat.mod_eq_of_lt hm]

/-- A field of a word whose value is split at that field. -/
theorem extract_eq {w : Word} {hi mid lo n k m p : Nat} (hmk : 2 ^ k = m) (hpn : 2 ^ n = p) (hm : mid < m)
    (hl : lo < p) (h : w.toNat = hi * m * p + mid * p + lo) : (w.extractLsb' n k).toNat = mid := by
  rw [BitVec.extractLsb'_toNat, h, Nat.shiftRight_eq_div_pow, hmk, hpn, digit_eq hm hl]

theorem opcField_cmd32 {opc imm : Nat} (ho : opc < 16) (hi : imm < 65536) (d a b : DescIdx) :
    (opcField (cmd32 opc imm d a b)).toNat = opc := by
  have := d.isLt; have := a.isLt; have := b.isLt
  refine extract_eq (hi := 0) (lo := imm * 4096 + d.val * 256 + a.val * 16 + b.val) (m := 16) (p := 268435456)
    (by norm_num) (by norm_num) ho (by omega) ?_
  rw [cmd32_toNat ho hi]; omega

theorem immField_cmd32 {opc imm : Nat} (ho : opc < 16) (hi : imm < 65536) (d a b : DescIdx) :
    (immField (cmd32 opc imm d a b)).toNat = imm := by
  have := d.isLt; have := a.isLt; have := b.isLt
  refine extract_eq (hi := opc) (lo := d.val * 256 + a.val * 16 + b.val) (m := 65536) (p := 4096)
    (by norm_num) (by norm_num) hi (by omega) ?_
  rw [cmd32_toNat ho hi]; omega

theorem dField_val (w : Word) : (dField w).val = (w.extractLsb' 8 4).toNat := rfl
theorem aField_val (w : Word) : (aField w).val = (w.extractLsb' 4 4).toNat := rfl
theorem bField_val (w : Word) : (bField w).val = (w.extractLsb' 0 4).toNat := rfl

theorem dField_cmd32 {opc imm : Nat} (ho : opc < 16) (hi : imm < 65536) (d a b : DescIdx) :
    dField (cmd32 opc imm d a b) = d := by
  apply Fin.ext; rw [dField_val]
  have := d.isLt; have := a.isLt; have := b.isLt
  refine extract_eq (hi := opc * 65536 + imm) (lo := a.val * 16 + b.val) (m := 16) (p := 256)
    (by norm_num) (by norm_num) d.isLt (by omega) ?_
  rw [cmd32_toNat ho hi]; omega

theorem aField_cmd32 {opc imm : Nat} (ho : opc < 16) (hi : imm < 65536) (d a b : DescIdx) :
    aField (cmd32 opc imm d a b) = a := by
  apply Fin.ext; rw [aField_val]
  have := d.isLt; have := a.isLt; have := b.isLt
  refine extract_eq (hi := opc * 1048576 + imm * 16 + d.val) (lo := b.val) (m := 16) (p := 16)
    (by norm_num) (by norm_num) a.isLt (by omega) ?_
  rw [cmd32_toNat ho hi]; omega

theorem bField_cmd32 {opc imm : Nat} (ho : opc < 16) (hi : imm < 65536) (d a b : DescIdx) :
    bField (cmd32 opc imm d a b) = b := by
  apply Fin.ext; rw [bField_val]
  have := d.isLt; have := a.isLt; have := b.isLt
  refine extract_eq (hi := opc * 16777216 + imm * 256 + d.val * 16 + a.val) (lo := 0) (m := 16) (p := 1)
    (by norm_num) (by norm_num) b.isLt (by omega) ?_
  rw [cmd32_toNat ho hi]; omega

end Sys2Proof

namespace Sys2Proof.Laws.FieldForm

/-- The word has these five fields (R82). -/
structure HasFields (w : Word) (opc imm : Nat) (d a b : DescIdx) : Prop where
  opc : (opcField w).toNat = opc
  imm : (immField w).toNat = imm
  d : dField w = d
  a : aField w = a
  b : bField w = b

theorem hasFields_cmd32 {opc imm : Nat} (ho : opc < 16) (hi : imm < 65536) (d a b : DescIdx) :
    HasFields (cmd32 opc imm d a b) opc imm d a b :=
  ⟨opcField_cmd32 ho hi d a b, immField_cmd32 ho hi d a b, dField_cmd32 ho hi d a b, aField_cmd32 ho hi d a b,
    bField_cmd32 ho hi d a b⟩

/-- The word of a well-formed command holds its opcode (R85), its operands where R82 puts them, and 0 in every field
that R86 says must be zero. -/
def Statement : Instr → Prop
  | .nop => HasFields (encode .nop) 0 0 0 0 0
  | .mmul d a b => HasFields (encode (.mmul d a b)) 1 0 d a b
  | .madd d a b => HasFields (encode (.madd d a b)) 2 0 d a b
  | .mtrn d a => HasFields (encode (.mtrn d a)) 3 0 d a 0
  | .gsamp d size => (Instr.gsamp d size).wellFormed = true → HasFields (encode (.gsamp d size)) 4 size d 0 0
  | .decb d v w => HasFields (encode (.decb d v w)) 5 0 d v w

theorem nop : Statement .nop := hasFields_cmd32 (by decide) (by decide) 0 0 0

theorem mmul (d a b : DescIdx) : Statement (.mmul d a b) := hasFields_cmd32 (by decide) (by decide) d a b

theorem madd (d a b : DescIdx) : Statement (.madd d a b) := hasFields_cmd32 (by decide) (by decide) d a b

theorem mtrn (d a : DescIdx) : Statement (.mtrn d a) := hasFields_cmd32 (by decide) (by decide) d a 0

theorem gsamp (d : DescIdx) (size : Nat) : Statement (.gsamp d size) := fun h =>
  hasFields_cmd32 (by decide) (by simpa [Instr.wellFormed] using h) d 0 0

theorem decb (d v w : DescIdx) : Statement (.decb d v w) := hasFields_cmd32 (by decide) (by decide) d v w

end Sys2Proof.Laws.FieldForm
end

