-- ==== Sys2Proof/Laws/Step.lean ====
section
/-! SUPPORT. What one step can do. -/

namespace Sys2Proof.Machine

/-- The state in which the turn that a step takes is played: the schedule without its first turn. -/
def State.afterPop (s : State) : State := { s with sched := s.sched.tail }

/-- The ways in which the executor's turn can answer with a next state. -/
inductive ExecutorNext (s t : State) : Prop where
  /-- The executor has no step. -/
  | idle (why : s.rstN = false ∨ s.status.busy = false ∨ s.inflight = none) (ht : t = s)
  /-- An illegal command word completes with ERR_ILLEGAL. -/
  | illegal (fl : Inflight) (e : Illegal) (hr : s.rstN = true) (hb : s.status.busy = true)
      (hf : s.inflight = some fl) (hd : decode fl.word = .error e) (ht : t = endedWith s ErrCode.illegal.bits)
  /-- The command in flight takes a step. -/
  | runs (fl : Inflight) (i : Instr) (hr : s.rstN = true) (hb : s.status.busy = true) (hf : s.inflight = some fl)
      (hd : decode fl.word = .ok i) (he : exec i s = .next t)

/-- The inversion of the executor's turn. -/
theorem executorTurn_next {s t : State} (h : executorTurn s = .next t) : ExecutorNext s t := by
  cases hr : s.rstN with
  | false => simp [executorTurn, hr] at h; exact .idle (.inl hr) h.symm
  | true =>
    cases hb : s.status.busy with
    | false => simp [executorTurn, hb] at h; exact .idle (.inr (.inl hb)) h.symm
    | true =>
      cases hf : s.inflight with
      | none => simp [executorTurn, hf] at h; exact .idle (.inr (.inr hf)) h.symm
      | some fl =>
        simp only [executorTurn, hr, hb, hf, runInflight, Bool.and_self, if_true] at h
        cases hd : decode fl.word with
        | error e =>
          rw [hd] at h
          cases h
          exact .illegal fl e hr hb hf hd (raiseError_eq s (by decide))
        | ok i => rw [hd] at h; exact .runs fl i hr hb hf hd h

/-- The ways in which a step can answer with a next state. -/
inductive StepNext (s t : State) : Prop where
  | host (a : Access) (rest : List Turn) (hs : s.sched = .host a :: rest) (h : hostAccess a s.afterPop = .next t)
  | executor (h : executorTurn s.afterPop = .next t)
  | entropy (z : Word) (rest : List Turn) (hs : s.sched = .entropy z :: rest)
      (ht : t = { s.afterPop with entropy := s.entropy ++ [z] })
  | rstN (level : Bool) (rest : List Turn) (hs : s.sched = .rstN level :: rest) (ht : t = s.afterPop.driveRstN level)

/-- The inversion of step. -/
theorem step_next {s t : State} (h : step s = .next t) : StepNext s t := by
  cases hs : s.sched with
  | nil =>
    have he : s.afterPop = s := by
      cases s; simp only [State.afterPop] at *; subst hs; rfl
    simp only [step, nextTurn, hs] at h
    exact .executor (by rw [he]; exact h)
  | cons x rest =>
    have he : s.afterPop = { s with sched := rest } := by simp [State.afterPop, hs]
    simp only [step, nextTurn, hs, takeTurn] at h
    cases x with
    | host a => exact .host a rest hs (by rw [he]; exact h)
    | executor => exact .executor (by rw [he]; exact h)
    | entropy z => cases h; exact .entropy z rest hs (by rw [he])
    | rstN level => cases h; exact .rstN level rest hs (by rw [he])

end Sys2Proof.Machine
end

