-- ==== Sys2Proof/Tests/Slice0.lean ====
section
/-! SUPPORT. The model's own tests. Every expected value is from spec/ (the rule or vector is named), and one witness
per obligation that has hypotheses. -/

namespace Sys2Proof.Tests

open Sys2Proof.Machine

/-! ### Helpers -/

/-- A descriptor. -/
def tDesc (base rows cols : Nat) : Desc :=
  { base := BitVec.ofNat 20 base, rows := BitVec.ofNat 16 rows, cols := BitVec.ofNat 16 cols }

/-- The reset state with Q, SIGMA, the first descriptors and the first elements of memory set. -/
def tState (q sigma : Nat) (ds : List Desc) (mem : List Nat) : State :=
  { State.reset with
    q := BitVec.ofNat 16 q
    sigma := BitVec.ofNat 16 sigma
    descs := Vector.ofFn fun k => ds.getD k.val Desc.reset
    mem := mem.zipIdx.map fun p => (p.2, BitVec.ofNat 16 p.1) }

/-- The outcome's next state. -/
def tNext : StepOutcome → Option State
  | .next t => some t
  | _ => none

/-- Issue a command word and take one step of the executor. -/
def tRun (w : Word) (s : State) : Option State := tNext (step (s.issue w))

/-- STATUS, one descriptor's shape word, and n elements from an index on. -/
def tSee (k : DescIdx) (base n : Nat) (o : Option State) : Option (Nat × Nat × List (Option Nat)) :=
  o.map fun t => (t.status.toWord.toNat, t.descs[k].shapeWord.toNat,
    (List.range n).map fun i => (t.mem.read (base + i)).map (·.toNat))

/-! ### WellFormed: the one check refuses an ill-formed term (R84, R92) -/

theorem test_wellFormed_refuses_wide_immediate : (Instr.gsamp 0 65536).wellFormed = false := by decide

theorem test_wellFormed_accepts_largest_immediate : (Instr.gsamp 15 65535).wellFormed = true := by decide

/-! ### Decode (spec/95 2.1, R86, R93) -/

theorem test_decode_nop : decode 0x00000000#32 = .ok .nop := by decide
theorem test_decode_mmul : decode 0x10000201#32 = .ok (.mmul 2 0 1) := by decide
theorem test_decode_madd : decode 0x20000123#32 = .ok (.madd 1 2 3) := by decide
theorem test_decode_mtrn : decode 0x30000410#32 = .ok (.mtrn 4 1) := by decide
theorem test_decode_gsamp : decode 0x40100300#32 = .ok (.gsamp 3 256) := by decide
theorem test_decode_gsamp_largest : decode 0x4FFFFF00#32 = .ok (.gsamp 15 65535) := by decide
theorem test_decode_decb : decode 0x50000567#32 = .ok (.decb 5 6 7) := by decide
theorem test_decode_bitwise_mmul :
    decode (0b0001#4 ++ 0b0000000000000000#16 ++ 0b1111#4 ++ 0b0010#4 ++ 0b1001#4) = .ok (.mmul 15 2 9) := by decide

theorem test_decode_illegal :
    [0x00000001#32, 0x10001201#32, 0x2FFFFFFF#32, 0x30000411#32, 0x40000010#32, 0x40100301#32, 0x50001567#32].map decode
      = List.replicate 7 (.error .mustBeZero) := by decide

theorem test_decode_reserved :
    [0x60000000#32, 0xF0000000#32, 0xFFFFFFFF#32].map decode = List.replicate 3 (.error .reservedOpcode) := by decide

theorem test_tableWord_mtrn : decodeTableWord 32 0x30000410 = some (.mtrn 4 1) := by decide

/-! ### Assembler and host notation (R91 to R95) -/

theorem test_assemble_comment_and_case :
    asmLine "  gsamp D3 , #0x100 ; error vector" = some [.instr (.gsamp 3 256)] := by decide

theorem test_assemble_rejects_bad_operands :
    ["MTRN d4", "MMUL d16, d0, d1", "GSAMP d3, #65536", "NOP d0", "MMUL d1, d2, d3, d4"].map asmLine
      = List.replicate 5 none := by decide

theorem test_host_offsets :
    [HostReg.descBase 2, .descShape 0, .mem 3].map HostReg.offset = [0x110, 0x104, 0x40000C] := by decide

theorem test_host_decrypt_words :
    ((hostDecrypt 0 14 11 7 0 12 13).filterMap fun l => match l.act with | .cmd c => some c.toWord | _ => none)
      = [0x30000C00#32, 0x10000DC7#32, 0x50000EBD#32] := by decide

/-- R95: WAIT is two lines, the first of them marked. -/
theorem test_host_wait_lines :
    hostWait 3 = [⟨some 3, .rd .status 0⟩, ⟨none, .bnz 0 1#32 3⟩] := by decide

/-- R92, R97: #m must lie in 0..65535. -/
theorem test_host_keygen_range :
    (hostKeygen 0 0 1 2 3 4 65535).isSome = true ∧ hostKeygen 0 0 1 2 3 4 65536 = none := by decide

/-- R95: the shape value is cols·0x1_0000 + rows. -/
theorem test_host_setd :
    hostSetd 2 12 3 5 = some [⟨none, .wr (.descBase 2) 12#32⟩, ⟨none, .wr (.descShape 2) 0x00050003#32⟩] := by decide

/-! ### Commands (spec/95 sections 1 and 2) -/

theorem test_nop_after_reset : tSee 0 0 1 (tRun 0x00000000#32 State.reset) = some (0x02, 0, [none]) := by decide

/-- V1: the fixture of spec/90 C2. -/
theorem test_mmul_fixture :
    tSee 2 12 4 (tRun 0x10000201#32
      (tState 7 0 [tDesc 0 2 3, tDesc 6 3 2, tDesc 12 0 0] [1, 2, 3, 4, 5, 6, 7, 8, 9, 1, 2, 3]))
      = some (0x02, 0x00020002, [some 3, some 5, some 1, some 6]) := by decide

/-- spec/95 2.2: in place, q = 5. -/
theorem test_mmul_in_place :
    tSee 0 0 4 (tRun 0x10000000#32 (tState 5 0 [tDesc 0 2 2] [1, 1, 1, 0]))
      = some (0x02, 0x00020002, [some 2, some 1, some 1, some 1]) := by decide

/-- spec/95 2.3: doubling in place, q = 5. -/
theorem test_madd_in_place :
    tSee 0 0 6 (tRun 0x20000000#32 (tState 5 0 [tDesc 0 2 3] [1, 2, 3, 4, 5, 6]))
      = some (0x02, 0x00030002, [some 2, some 4, some 1, some 3, some 0, some 2]) := by decide

/-- spec/95 2.3: q = 65535, exact sum 131070. -/
theorem test_madd_largest :
    tSee 2 2 1 (tRun 0x20000201#32 (tState 65535 0 [tDesc 0 1 1, tDesc 1 1 1, tDesc 2 9 9] [65535, 65535]))
      = some (0x02, 0x00010001, [some 0]) := by decide

/-- spec/95 2.4: Q = 0, a 2×3 matrix. -/
theorem test_mtrn_ignores_q :
    tSee 1 6 6 (tRun 0x30000100#32 (tState 0 0 [tDesc 0 2 3, tDesc 6 0 0] [1, 2, 3, 4, 5, 6]))
      = some (0x02, 0x00020003, [some 1, some 4, some 2, some 5, some 3, some 6]) := by decide

/-- spec/95 P5: a 3×2 matrix transposed in place. -/
theorem test_mtrn_in_place :
    tSee 1 0 6 (tRun 0x30000110#32 (tState 0 0 [Desc.reset, tDesc 0 3 2] [2, 3, 4, 0, 1, 2]))
      = some (0x02, 0x00030002, [some 2, some 4, some 1, some 3, some 0, some 2]) := by decide

/-- V6: three draws held, q = 3329, SIGMA = 2.0. -/
theorem test_gsamp_fixture :
    tSee 3 0 3 (tNext (exec (.gsamp 3 3) { tState 3329 0x200 [] [] with
      inflight := some { word := 0x40003300#32, dsnap := Vector.replicate 16 Desc.reset, q := 3329#16, sigma := 0x200#16,
                         draws := [0x00010000#32, 0xFFFF0000#32, 0x00004000#32] } }))
      = some (0x02, 0x00010003, [some 2, some 3327, some 1]) := by decide

/-- spec/95 2.5: ties and extremes of single draws. -/
theorem test_gsamp_draws :
    [gaussElem 3329 0x200#16 0xFFFFC000#32, gaussElem 3329 0x200#16 0xFFFF4000#32, gaussElem 3329 0x200#16 0x80000000#32,
     gaussElem 3329 0xFFFF#16 0x7FFFFFFF#32, gaussElem 3329 0x0001#16 0x007FFFFF#32, gaussElem 17 0x100#16 0x80000000#32]
      = [3328#16, 3327#16, 1044#16, 2729#16, 0#16, 8#16] := by decide

/-- spec/95 P4: every residue mod 7 against 1. -/
theorem test_decb_residues :
    tSee 2 14 7 (tRun 0x50000201#32 (tState 7 0 [tDesc 0 1 7, tDesc 7 1 7, tDesc 14 0 0]
      [0, 1, 2, 3, 4, 5, 6, 1, 1, 1, 1, 1, 1, 1]))
      = some (0x02, 0x00070001, [some 0, some 0, some 0, some 1, some 1, some 1, some 1]) := by decide

/-- V3: the boundary and the tie at q = 3329. -/
theorem test_decb_boundary : [831, 832, 2496, 2497].map (decodeBit · 3329) = [0, 1, 1, 0] := by decide

/-- spec/95 2.7: error priority. -/
theorem test_error_priority :
    [(tRun 0x10001201#32 (tState 0 0 [tDesc 0 2 3, tDesc 0 2 3] [])), (tRun 0x10000201#32 (tState 0 0 [tDesc 0 2 3, tDesc 0 2 3] [])),
     (tRun 0x20000201#32 (tState 7 0 [tDesc 0xFFFFF 2 3, tDesc 0 1 1] [])), (tRun 0x30000430#32 (tState 0 0 [Desc.reset, Desc.reset, Desc.reset, tDesc 0xFFFFF 2 3] [])),
     (tRun 0x40004500#32 (tState 7 0 [] []))].map (fun o => o.map (·.status.toWord.toNat))
      = [some 0x22, some 0x32, some 0x12, some 0x52, some 0x42] := by decide

/-- spec/95 2.8: an empty source at BASE = MEM_WORDS is in bounds, one beyond is not. -/
theorem test_empty_bounds :
    ((tDesc 131072 0 5).inBounds 131072, (tDesc 131073 0 5).inBounds 131072) = (true, false) := by decide

/-! ### Host interface (spec/95 2.9, 2.10) -/

/-- The state after one access, as STATUS and the answered data. -/
def tAccess (a : Access) (s : State) : Option (Nat × Option Nat) :=
  (tNext (hostAccess a s)).map fun t => (t.status.toWord.toNat, t.rdata.map (·.toNat))

theorem test_byte_write_rejected :
    tAccess { off := 0x10, be := 0b0001#4, dir := .write 5#32 } State.reset = some (0x08, none) := by decide

theorem test_window_beyond_memory : tAccess (wordRead 0x480000) State.reset = some (0x08, some 0) := by decide

theorem test_window_write_discards_high_half :
    (tNext (hostAccess (wordWrite 0x40000C 0xABCD1234#32) State.reset)).map (·.mem) = some [(3, 0x1234#16)] := by decide

theorem test_status_write_keeps_err :
    tAccess (wordWrite 0x008 0xFFFFFFFF#32) (endedWith (State.reset.issue 0#32) 1#4) = some (0x10, none) := by decide

theorem test_soft_reset_wins_over_ie :
    (tNext (hostAccess (wordWrite 0x004 3#32) { State.reset with ie := true, q := 7#16 })).map
      (fun t => (t.ie, t.q)) = some (false, 0#16) := by decide

theorem test_busy_read_rejected :
    tAccess (wordRead 0x010) ((tState 7 0x100 [] []).issue 0x40001500#32) = some (0x09, some 0) := by decide

/-- spec/95 2.10: reading MEM[0] after power-on is a fault of the model. -/
theorem test_unwritten_read_faults : hostAccess (wordRead 0x400000) State.reset = .fault .hostReadUnwritten := by rfl

/-- spec/95 2.10: a soft reset during GSAMP #1 at BASE 20 leaves MEM[20] written. -/
theorem test_abort_writes_destination :
    (tNext (hostAccess (wordWrite 0x004 2#32)
      ((tState 7 0x100 [Desc.reset, Desc.reset, Desc.reset, Desc.reset, Desc.reset, tDesc 20 0 0] [5]).issue
        0x40001500#32))).map (fun t => (t.mem.map (·.1), t.status.toWord)) = some ([0, 20], 0#32) := by decide

/-! ### Witnesses: a concrete state and operands that meet the hypotheses of each obligation -/

/-- Q = 7, SIGMA = 1.0, D0 = (0, 1×1), D1 = (1, 1×1), D2 = (2, 0×0), MEM[0..1] = 3, 5, and the word in flight. -/
def tBusy (w : Word) : State := (tState 7 0x100 [tDesc 0 1 1, tDesc 1 1 1, tDesc 2 0 0] [3, 5]).issue w

/-- What is in flight in `tBusy`. -/
def tFlight (w : Word) : Inflight :=
  { word := w, dsnap := (tBusy w).descs, q := 7#16, sigma := 0x100#16, draws := [] }

theorem tBusy_inflight (w : Word) : (tBusy w).inflight = some (tFlight w) := rfl

/-- A matrix of at most one entry holds that entry. -/
theorem tHolds {M : Desc} {m : Memory} {r c : Nat} {v : Elem} (hr : r ≤ 1) (hc : c ≤ 1)
    (hv : m.read M.base.toNat = some v) : Holds M m r c fun _ _ => v := by
  intro i j hi hj
  obtain rfl : i = 0 := by omega
  obtain rfl : j = 0 := by omega
  simpa using hv

theorem witness_FloormodIsCanonicalResidue :
    ∃ (x : Int) (q : Nat), x = -7 ∧ 1 ≤ q ∧ 3322 < q ∧ (q : Int) ∣ x - (3322 : Nat) := ⟨-7, 3329, by decide⟩

theorem witness_ResetTable : ∃ (s : State) (x : Nat), s.status.busy = true ∧ ¬ InAbortedRegion s x :=
  ⟨tBusy 0#32, 0, rfl, by
    rintro ⟨fl, i, d, r, c, -, hf, hd, -, hr, -⟩
    cases (tBusy_inflight 0#32).symm.trans hf
    cases (show decode 0#32 = .ok .nop from rfl).symm.trans hd
    cases hr⟩

theorem witness_SoftResetAbortsCommand :
    ∃ (s : State) (w : Word) (x : Nat), s.rstN = true ∧ w.getLsbD 1 = true ∧ InAbortedRegion s x :=
  ⟨tBusy 0x40001200#32, 3#32, 2, rfl, by decide, tFlight 0x40001200#32, .gsamp 2 1, 2, 1, 1, rfl, rfl, by rfl, by decide, rfl,
    by decide, by decide⟩

theorem witness_PowerOnResetHoldsBlock :
    (∃ (s : State) (rest : List Turn), s.sched = .rstN false :: rest) ∧
    (∃ s : State, s.rstN = false ∧ s.Inv) ∧
    ∃ (s : State) (rest : List Turn), s.rstN = false ∧ s.sched = .rstN true :: rest :=
  ⟨⟨{ tBusy 0#32 with sched := [.rstN false] }, [], rfl⟩,
    ⟨{ State.reset with rstN := false }, rfl, rfl, by decide, by decide, nofun, nofun, nofun, by decide, nofun,
      fun _ => ⟨⟨rfl, rfl, rfl, rfl, rfl, by decide, rfl⟩, rfl⟩⟩,
    { State.reset with rstN := false, sched := [.rstN true] }, [], rfl, rfl⟩

theorem witness_IdReadsConstant : State.reset.rstN = true := rfl

theorem witness_CtrlHoldsInterruptEnable : State.reset.rstN = true ∧ (1#32).getLsbD 1 = false := by decide

theorem witness_ParameterRegistersStoreLowHalf : State.reset.rstN = true ∧ State.reset.status.busy = false := by decide

theorem witness_StatusReadsItsFields : (tBusy 0#32).rstN = true := rfl

theorem witness_StatusWriteClearsFlags : (tBusy 0#32).rstN = true := rfl

theorem witness_CmdWriteIssuesCommand : State.reset.rstN = true ∧ State.reset.status.busy = false := by decide

theorem witness_CmdWriteWhileBusyDropped : (tBusy 0#32).rstN = true ∧ (tBusy 0#32).status.busy = true := by decide

theorem witness_DescriptorRegisters : State.reset.rstN = true ∧ State.reset.status.busy = false := by decide

theorem witness_ReservedOffsetsReadZero :
    ∀ off ∈ [0x018, 0x0FC, 0x180, 0x3FFFFC], State.reset.rstN = true ∧ off % 4 = 0 ∧
      ((0x018 ≤ off ∧ off < 0x100) ∨ (0x180 ≤ off ∧ off < 0x400000)) := by decide

theorem witness_UnalignedAccessRejected :
    State.reset.rstN = true ∧ ((0x11#23).toNat % 4 ≠ 0 ∨ 0b1111#4 ≠ 0b1111#4) ∧
      ((0x10#23).toNat % 4 ≠ 0 ∨ 0b0001#4 ≠ 0b1111#4) := by decide

theorem witness_BusyBlocksOperandAccess :
    (tBusy 0#32).rstN = true ∧ (tBusy 0#32).status.busy = true ∧
    (∀ off ∈ [0x010, 0x014, 0x100, 0x17C, 0x400000, 0x7FFFFC], off % 4 = 0 ∧ off < 2 ^ 23 ∧
      (off = 0x010 ∨ off = 0x014 ∨ (0x100 ≤ off ∧ off < 0x180) ∨ 0x400000 ≤ off)) ∧
    ∀ off ∈ [0x000, 0x00C, 0x018, 0x0FC, 0x180, 0x3FFFFC], off % 4 = 0 ∧ off < 2 ^ 23 ∧
      (off < 0x010 ∨ (0x018 ≤ off ∧ off < 0x100) ∨ (0x180 ≤ off ∧ off < 0x400000)) := by decide

theorem witness_WindowStoresElement :
    (tState 7 0 [] [9]).rstN = true ∧ (tState 7 0 [] [9]).status.busy = false ∧
    (∀ i ∈ [0, 131071], i < (tState 7 0 [] [9]).memWords ∧ i < 2 ^ 20) ∧
    (tState 7 0 [] [9]).mem.read 0 = some 9#16 := by decide

theorem witness_WindowBeyondMemoryRejected :
    ∀ i ∈ [131072, 1048575], State.reset.rstN = true ∧ State.reset.memWords ≤ i ∧ i < 2 ^ 20 := by decide

theorem witness_UnwrittenReadFaults :
    (State.reset.rstN = true ∧ State.reset.status.busy = false ∧ 131071 < State.reset.memWords ∧
      State.reset.mem.read 131071 = none) ∧
    ∃ (s : State) (fl : Inflight), s.inflight = some fl ∧ checks (.mmul 2 0 1) fl s.memWords = .ok ∧
      checks (.madd 2 0 1) fl s.memWords = .ok ∧ checks (.mtrn 2 0) fl s.memWords = .ok ∧
      checks (.decb 2 0 1) fl s.memWords = .ok ∧
      0 < (fl.snap 0).rows.toNat ∧ 0 < (fl.snap 1).cols.toNat ∧ 0 < (fl.snap 0).cols.toNat ∧
      s.mem.read ((fl.snap 0).base.toNat + 0 * (fl.snap 0).cols.toNat + 0) = none :=
  ⟨by decide, { tBusy 0x10000201#32 with mem := [] }, tFlight 0x10000201#32, by decide⟩

/-- An accepted read, one rejected because the block is busy, and one that is not an aligned full word. -/
theorem witness_ReadsHaveNoSideEffect :
    (∃ (a : Access) (s t : State), a.dir = .read ∧ hostAccess a s = .next t ∧ a.isAlignedWord = true ∧
      s.rejects (targetOf a.off.toNat) = false) ∧
    (∃ (a : Access) (s t : State), a.dir = .read ∧ hostAccess a s = .next t ∧
      s.rejects (targetOf a.off.toNat) = true) ∧
    ∃ (a : Access) (s t : State), a.dir = .read ∧ hostAccess a s = .next t ∧ a.isAlignedWord = false :=
  ⟨⟨wordRead 0x010, State.reset, _, rfl, rfl, by decide, by decide⟩,
    ⟨wordRead 0x010, tBusy 0#32, _, rfl, rfl, by decide⟩,
    ⟨{ off := 0x011#23, be := 0b1111#4, dir := .read }, State.reset, _, rfl, rfl, by decide⟩⟩

theorem witness_DecodeOfEncode : (Instr.gsamp 15 65535).wellFormed = true := by decide

theorem witness_EncodeOfDecode : decode 0x4FFFFF00#32 = .ok (.gsamp 15 65535) := by decide

theorem witness_DecodeFollowsMatchTable :
    decode 0x30000410#32 = .ok (.mtrn 4 1) ∧ (⟨"MTRN", 0x30000000#32, 0xFFFFF00F#32⟩ : OpcodeRow) ∈ opcodeRows ∧
      (⟨"MTRN", 0x30000000#32, 0xFFFFF00F#32⟩ : OpcodeRow).covers 0x30000410#32 = true := by decide

theorem witness_IllegalWordCompletesWithCode2 :
    (6 ≤ (0x60000000#32).toNat / 2 ^ 28 ∧ 6 ≤ (0xFFFFFFFF#32).toNat / 2 ^ 28) ∧
    ((0x00000001#32).toNat / 2 ^ 28 = 0 ∧ 0x00000001#32 ≠ 0#32) ∧
    ((0x50001000#32).toNat / 2 ^ 28 = 5 ∧ (0x50001000#32).toNat / 2 ^ 12 % 2 ^ 16 ≠ 0) ∧
    ((0x30000001#32).toNat / 2 ^ 28 = 3 ∧ (0x30000001#32).toNat % 2 ^ 4 ≠ 0) ∧
    ((0x40000001#32).toNat / 2 ^ 28 = 4 ∧ (0x40000001#32).toNat % 2 ^ 8 ≠ 0) ∧
    (tBusy 0x60000000#32).sched = [] ∧ (tBusy 0x60000000#32).rstN = true ∧ (tBusy 0x60000000#32).status.busy = true ∧
    (tBusy 0x60000000#32).inflight = some (tFlight 0x60000000#32) ∧
    decode (tFlight 0x60000000#32).word = .error .reservedOpcode ∧
    { tBusy 0x60000000#32 with sched := [.executor] }.sched = .executor :: [] := by decide

theorem witness_AssemblerEmitsLegalWords :
    asmChars "GSAMP d15, #65535".toList = some [.instr (.gsamp 15 65535)] ∧
    AsmItem.instr (.gsamp 15 65535) ∈ [AsmItem.instr (.gsamp 15 65535)] := by decide

theorem witness_StepRunsCommandInFlight :
    (tBusy 0x10000201#32).rstN = true ∧ (tBusy 0x10000201#32).status.busy = true ∧
    (tBusy 0x10000201#32).inflight = some (tFlight 0x10000201#32) ∧
    decode (tFlight 0x10000201#32).word = .ok (.mmul 2 0 1) ∧ (tBusy 0x10000201#32).sched = [] ∧
    { tBusy 0x10000201#32 with sched := [.executor] }.sched = .executor :: [] ∧
    { tBusy 0x10000201#32 with sched := [.host (wordRead 0)] }.sched = .host (wordRead 0) :: [] := by decide

/-- Every clause of ChecksFailInOrder, at the value where the check first fails. -/
theorem witness_ChecksFailInOrder :
    ({ tFlight 0#32 with q := 1#16 } : Inflight).q.toNat < 2 ∧
    (2 ≤ ({ tFlight 0#32 with q := 2#16, sigma := 0#16 } : Inflight).q.toNat ∧
      ({ tFlight 0#32 with q := 2#16, sigma := 0#16 } : Inflight).sigma.toNat = 0) ∧
    (2 ≤ (tFlight 0#32).q.toNat ∧ (tFlight 0#32).sigma.toNat ≠ 0 ∧
      (tBusy 0#32).memWords < ((tFlight 0#32).snap 0).base.toNat + 131073) ∧
    ((tFlight 0#32).snap 0).cols ≠ ((tFlight 0#32).snap 2).rows ∧
    ((tFlight 0#32).snap 0).cols = ((tFlight 0#32).snap 1).rows ∧
    ((tFlight 0#32).snap 0).rows ≠ ((tFlight 0#32).snap 2).rows ∧
    ((tFlight 0#32).snap 0).rows = ((tFlight 0#32).snap 1).rows ∧
    ((tFlight 0#32).snap 0).cols = ((tFlight 0#32).snap 1).cols ∧
    (∃ n : Nat, ¬ InMemory ((tFlight 0#32).snap 1) n) :=
  ⟨by decide, by decide, by decide, by decide, by decide, by decide, by decide, by decide, 1,
    by unfold InMemory; decide⟩

theorem witness_CommandFrameHolds :
    ∃ (s t : State) (fl : Inflight), s.inflight = some fl ∧ exec (.mmul 2 0 1) s = .next t ∧
      resultShape (.mmul 2 0 1) fl = some (2, 1, 1) :=
  ⟨tBusy 0x10000201#32, _, tFlight 0x10000201#32, rfl, rfl, rfl⟩

theorem witness_OtherCommandsAreAlwaysReady :
    (tBusy 0x10000201#32).inflight = some (tFlight 0x10000201#32) ∧ ∀ d size, Instr.mmul 2 0 1 ≠ .gsamp d size :=
  ⟨rfl, nofun⟩

theorem witness_CommandReadsOnlyInflightAndMemory :
    ∃ (s s' t : State) (fl : Inflight), s.inflight = some fl ∧ s'.inflight = some fl ∧ s'.mem = s.mem ∧
      s'.memWords = s.memWords ∧ s'.descs ≠ s.descs ∧ exec (.mmul 2 0 1) s = .next t ∧ t.inflight = none ∧
      t.status.err = 0#4 ∧ resultShape (.mmul 2 0 1) fl = some (2, 1, 1) :=
  ⟨tBusy 0x10000201#32, { tBusy 0x10000201#32 with q := 9#16, descs := Vector.replicate 16 Desc.reset }, _,
    tFlight 0x10000201#32, rfl, rfl, rfl, rfl, by decide, rfl, rfl, rfl, rfl⟩

theorem witness_HostCannotDisturbCommand :
    ∃ (a : Access) (s s' : State), s.status.busy = true ∧ hostAccess a s = .next s' ∧
      ∀ w, a = wordWrite 0x004 w → w.getLsbD 1 = false :=
  ⟨wordWrite 0x010 5#32, tBusy 0x10000201#32, _, rfl, rfl, fun _ h => absurd (congrArg Access.off h) (show ¬ (0x10#23 = 0x04#23) by decide)⟩

theorem witness_NopCompletes : (tBusy 0#32).inflight = some (tFlight 0#32) := rfl

theorem witness_MmulWritesProduct :
    ∃ (s : State) (fl : Inflight) (x y : Nat → Nat → Elem), s.inflight = some fl ∧ 2 ≤ fl.q.toNat ∧
      (fl.snap 0).cols = (fl.snap 1).rows ∧ InMemory (fl.snap 0) s.memWords ∧ InMemory (fl.snap 1) s.memWords ∧
      (fl.snap 2).base.toNat + (fl.snap 0).rows.toNat * (fl.snap 1).cols.toNat ≤ s.memWords ∧
      Holds (fl.snap 0) s.mem (fl.snap 0).rows.toNat (fl.snap 0).cols.toNat x ∧
      Holds (fl.snap 1) s.mem (fl.snap 1).rows.toNat (fl.snap 1).cols.toNat y :=
  ⟨tBusy 0x10000201#32, tFlight 0x10000201#32, fun _ _ => 3#16, fun _ _ => 5#16, rfl, by decide, by decide,
    by unfold InMemory; decide, by unfold InMemory; decide, by decide,
    tHolds (by decide) (by decide) (by decide), tHolds (by decide) (by decide) (by decide)⟩

theorem witness_MaddWritesSum :
    ∃ (s : State) (fl : Inflight) (x y : Nat → Nat → Elem), s.inflight = some fl ∧ 2 ≤ fl.q.toNat ∧
      (fl.snap 0).rows = (fl.snap 1).rows ∧ (fl.snap 0).cols = (fl.snap 1).cols ∧
      InMemory (fl.snap 0) s.memWords ∧ InMemory (fl.snap 1) s.memWords ∧
      (fl.snap 2).base.toNat + (fl.snap 0).rows.toNat * (fl.snap 0).cols.toNat ≤ s.memWords ∧
      Holds (fl.snap 0) s.mem (fl.snap 0).rows.toNat (fl.snap 0).cols.toNat x ∧
      Holds (fl.snap 1) s.mem (fl.snap 1).rows.toNat (fl.snap 1).cols.toNat y :=
  ⟨tBusy 0x20000201#32, tFlight 0x20000201#32, fun _ _ => 3#16, fun _ _ => 5#16, rfl, by decide, by decide, by decide,
    by unfold InMemory; decide, by unfold InMemory; decide, by decide,
    tHolds (by decide) (by decide) (by decide), tHolds (by decide) (by decide) (by decide)⟩

theorem witness_MtrnWritesTranspose :
    ∃ (s : State) (fl : Inflight) (x : Nat → Nat → Elem), s.inflight = some fl ∧ InMemory (fl.snap 0) s.memWords ∧
      (fl.snap 2).base.toNat + (fl.snap 0).cols.toNat * (fl.snap 0).rows.toNat ≤ s.memWords ∧
      Holds (fl.snap 0) s.mem (fl.snap 0).rows.toNat (fl.snap 0).cols.toNat x :=
  ⟨tBusy 0x30000200#32, tFlight 0x30000200#32, fun _ _ => 3#16, rfl, by unfold InMemory; decide, by decide,
    tHolds (by decide) (by decide) (by decide)⟩

theorem witness_DecbWritesBits :
    ∃ (s : State) (fl : Inflight) (x y : Nat → Nat → Elem), s.inflight = some fl ∧ 2 ≤ fl.q.toNat ∧
      (fl.snap 0).rows = (fl.snap 1).rows ∧ (fl.snap 0).cols = (fl.snap 1).cols ∧
      InMemory (fl.snap 0) s.memWords ∧ InMemory (fl.snap 1) s.memWords ∧
      (fl.snap 2).base.toNat + (fl.snap 0).rows.toNat * (fl.snap 0).cols.toNat ≤ s.memWords ∧
      Holds (fl.snap 0) s.mem (fl.snap 0).rows.toNat (fl.snap 0).cols.toNat x ∧
      Holds (fl.snap 1) s.mem (fl.snap 1).rows.toNat (fl.snap 1).cols.toNat y :=
  ⟨tBusy 0x50000201#32, tFlight 0x50000201#32, fun _ _ => 3#16, fun _ _ => 5#16, rfl, by decide, by decide, by decide,
    by unfold InMemory; decide, by unfold InMemory; decide, by decide,
    tHolds (by decide) (by decide) (by decide), tHolds (by decide) (by decide) (by decide)⟩

theorem witness_AccumulatorNeverOverflows :
    ∃ (A B : Desc) (m : Memory) (x y : Nat → Elem),
      (∀ k, k < 1 → A.elem m 0 k = some (x k)) ∧ ∀ k, k < 1 → B.elem m k 0 = some (y k) :=
  ⟨tDesc 0 1 1, tDesc 1 1 1, [(0, 65535#16), (1, 65535#16)], fun _ => 65535#16, fun _ => 65535#16,
    fun k hk => by obtain rfl : k = 0 := by omega
                   decide,
    fun k hk => by obtain rfl : k = 0 := by omega
                   decide⟩

theorem witness_MaddCommutes :
    2 ≤ (7#16).toNat ∧ (tDesc 0 1 1).elem [(0, 6#16), (1, 3#16)] 0 0 = some 6#16 ∧
      (tDesc 1 1 1).elem [(0, 6#16), (1, 3#16)] 0 0 = some 3#16 ∧ (6#16).toNat < (7#16).toNat := by decide

theorem witness_ResultsAreReduced :
    ∃ (s t : State) (fl : Inflight), s.inflight = some fl ∧ checks (.decb 2 0 1) fl s.memWords = .ok ∧
      resultShape (.decb 2 0 1) fl = some (2, 1, 1) ∧ exec (.decb 2 0 1) s = .next t ∧ t.inflight = none ∧
      (∀ d a, Instr.decb 2 0 1 ≠ .mtrn d a) ∧ (fl.snap 2).base.toNat ≤ 2 ∧ 2 < (fl.snap 2).base.toNat + 1 * 1 :=
  ⟨tBusy 0x50000201#32, _, tFlight 0x50000201#32, rfl, by decide, rfl, rfl, rfl, nofun, by decide, by decide⟩

/-- 1×1 operands at the first and the second element, 9 and 10 mod 7, and an element beyond them that stays 9. -/
theorem witness_UnreducedOperandsChangeNothing :
    ∃ (A B : Desc) (m m' : Memory), m ≠ m' ∧ m'.read 2 = some 9#16 ∧ A.cols = B.rows ∧ A.rows = B.rows ∧
      A.cols = B.cols ∧ 0 < A.rows.toNat ∧ 0 < A.cols.toNat ∧
      (∀ i j, i < A.rows.toNat → j < A.cols.toNat →
        A.elem m' i j = (A.elem m i j).map fun v => BitVec.ofNat 16 (v.toNat % 7)) ∧
      ∀ i j, i < B.rows.toNat → j < B.cols.toNat →
        B.elem m' i j = (B.elem m i j).map fun v => BitVec.ofNat 16 (v.toNat % 7) := by
  refine ⟨tDesc 0 1 1, tDesc 1 1 1, [(0, 9#16), (1, 10#16), (2, 9#16)], [(0, 2#16), (1, 3#16), (2, 9#16)], by decide,
    by decide, by decide, by decide, by decide, by decide, by decide, ?_, ?_⟩ <;>
  · intro i j (hi : i < 1) (hj : j < 1)
    obtain rfl : i = 0 := by omega
    obtain rfl : j = 0 := by omega
    decide

theorem witness_TransposeIsInvolution :
    ∃ (s t u : State) (x : Nat → Nat → Elem),
      Holds s.descs[(0 : DescIdx)] s.mem s.descs[(0 : DescIdx)].rows.toNat s.descs[(0 : DescIdx)].cols.toNat x ∧
      exec (.mtrn 1 0) (s.issue (encode (.mtrn 1 0))) = .next t ∧ t.status.err = 0#4 ∧
      exec (.mtrn 2 1) (t.issue (encode (.mtrn 2 1))) = .next u ∧ u.status.err = 0#4 :=
  ⟨tState 0 0 [tDesc 0 1 1, tDesc 1 0 0, tDesc 2 0 0] [3], _, _, fun _ _ => 3#16,
    tHolds (by decide) (by decide) (by decide), rfl, rfl, rfl, rfl⟩

/-- 1×1 matrices A = [[3]], B = [[4]], C = [[5]] at q = 7, AB = [[5]], BC = [[6]]. -/
theorem witness_MultiplyIsAssociative :
    ∃ (A B C AB BC : Desc) (m : Memory), A.cols = B.rows ∧ B.cols = C.rows ∧ AB.cols = B.cols ∧ BC.rows = B.rows ∧
      BC.cols = C.cols ∧ AB.rows = A.rows ∧
      Holds A m 1 1 (fun _ _ => 3#16) ∧ Holds B m 1 1 (fun _ _ => 4#16) ∧ Holds C m 1 1 (fun _ _ => 5#16) ∧
      AB.elem m 0 0 = mmulEntry A B m 7 0 0 ∧ BC.elem m 0 0 = mmulEntry B C m 7 0 0 := by
  refine ⟨tDesc 0 1 1, tDesc 1 1 1, tDesc 2 1 1, tDesc 3 1 1, tDesc 4 1 1,
    [(0, 3#16), (1, 4#16), (2, 5#16), (3, 5#16), (4, 6#16)], by decide, by decide, by decide, by decide, by decide,
    by decide, ?_, ?_, ?_, by decide, by decide⟩ <;> exact tHolds (by decide) (by decide) (by decide)

theorem witness_DestinationShapeIsIgnored :
    ∃ (s t : State) (fl : Inflight), s.inflight = some fl ∧ resultShape (.mtrn 2 0) fl = some (2, 1, 1) ∧
      (∀ d size, Instr.mtrn 2 0 ≠ .gsamp d size) ∧ 2 ∉ sources (.mtrn 2 0) ∧ exec (.mtrn 2 0) s = .next t ∧
      t.status.err = 0#4 :=
  ⟨tBusy 0x30000200#32, _, tFlight 0x30000200#32, rfl, rfl, nofun, by decide, rfl, rfl⟩

theorem witness_GsampWritesSamples :
    ∃ (s : State) (fl : Inflight) (z : Nat → Word), s.inflight = some fl ∧ 2 ≤ fl.q.toNat ∧ fl.sigma.toNat ≠ 0 ∧
      (fl.snap 2).base.toNat + 1 ≤ s.memWords ∧ fl.draws.length = 1 ∧ ∀ i, i < 1 → fl.draws[i]? = some (z i) :=
  ⟨{ tBusy 0x40001200#32 with inflight := some { tFlight 0x40001200#32 with draws := [0x00010000#32] } },
    { tFlight 0x40001200#32 with draws := [0x00010000#32] }, fun _ => 0x00010000#32, rfl, by decide, by decide,
    by decide, rfl, fun i hi => by obtain rfl : i = 0 := by omega
                                   rfl⟩

theorem witness_GsampTakesDrawsInOrder :
    ∃ (s : State) (fl : Inflight), s.inflight = some fl ∧ 2 ≤ fl.q.toNat ∧ fl.sigma.toNat ≠ 0 ∧
      (fl.snap 2).base.toNat + 1 ≤ s.memWords ∧ fl.draws.length < 1 ∧ s.entropy = 5#32 :: [] :=
  ⟨{ tBusy 0x40001200#32 with entropy := [5#32] }, tFlight 0x40001200#32, rfl, by decide⟩

/-- ent_ready in both cases, and for a GSAMP whose checks fail (SIGMA = 0 at issue). -/
theorem test_entReady :
    ((tBusy 0x40001200#32).entReady, State.reset.entReady, ((tState 7 0 [] []).issue 0x40001200#32).entReady)
      = (true, false, false) := by decide

theorem witness_GsampWaits :
    (tBusy 0x40001200#32).inflight = some (tFlight 0x40001200#32) ∧ (tFlight 0x40001200#32).draws.length < 1 ∧
      (tBusy 0x40001200#32).entropy = [] := by decide

theorem witness_GsampCompletesOnceSupplied :
    ∃ (s : State) (fl : Inflight) (zs rest : List Word), s.sched = [] ∧ s.rstN = true ∧ s.status.busy = true ∧
      s.inflight = some fl ∧ decode fl.word = .ok (.gsamp 2 1) ∧ fl.draws = [] ∧ 2 ≤ fl.q.toNat ∧
      fl.sigma.toNat ≠ 0 ∧ (fl.snap 2).base.toNat + 1 ≤ s.memWords ∧ s.entropy = zs ++ rest ∧ zs.length = 1 :=
  ⟨{ tBusy 0x40001200#32 with entropy := [5#32, 6#32] }, tFlight 0x40001200#32, [5#32], [6#32], rfl, rfl, rfl, rfl,
    rfl, rfl, by decide, by decide, by decide, rfl, rfl⟩

theorem witness_SampleRoundsHalfAway :
    ((2 ^ 23 : Int) - roundHalfAway24 (2 ^ 23) * 2 ^ 24).natAbs = 2 ^ 23 := by decide

theorem witness_SampleRangeIsExact :
    2 ≤ 3329 ∧ 3329 ≤ 2 * (128 * (0x200#16).toNat) + 1 ∧ (65536 : Int).natAbs ≤ 128 * (0x200#16).toNat := by decide

theorem witness_DecodeBitClosedForm : 2 ≤ 3329 ∧ 832 < 3329 := by decide

theorem witness_DecodeTiesGiveOne :
    2 ≤ 7 ∧ 5 < 7 ∧ min 5 (7 - 5) = (((5 : Nat) : Int) - ((7 / 2 : Nat) : Int)).natAbs ∧
      min 2 (8 - 2) = (((2 : Nat) : Int) - ((8 / 2 : Nat) : Int)).natAbs := by decide

theorem witness_DecodeToleratesNoise : 2 ≤ 3329 ∧ 1 ≤ 1 ∧ (-831 : Int).natAbs < (3329 / 2 + 1) / 2 := by decide

theorem witness_DecodeDependsOnResidues : 2 ≤ 7 ∧ decodeRaw 9#16 2#16 7 = 0 := by decide

/-- The invariant of a busy block, and its step. -/
theorem witness_StepKeepsInvariant : ∃ s t : State, s.Inv ∧ s.status.busy = true ∧ step s = .next t := by
  refine ⟨tBusy 0#32, _, ⟨rfl, by decide, by decide, fun _ => rfl, ?_, ?_, by decide, by decide, nofun⟩, rfl, rfl⟩
  · rintro fl h; cases h; exact ⟨rfl, rfl, rfl, rfl⟩
  · rintro fl h; cases h; exact (rfl : (tFlight 0#32).draws = [])

theorem witness_ErrorFlagsAreSticky :
    (∃ s t : State, step s = .next t ∧ s.status.cmdovr = true ∧ t.status.cmdovr = false) ∧
    (∃ s t : State, step s = .next t ∧ s.status.accerr = true ∧ t.status.accerr = false) ∧
    (∃ s t : State, step s = .next t ∧ s.status.cmdovr = false ∧ t.status.cmdovr = true) ∧
    ∃ s t : State, step s = .next t ∧ s.status.accerr = false ∧ t.status.accerr = true :=
  ⟨⟨{ tBusy 0#32 with status := { (tBusy 0#32).status with cmdovr := true }, sched := [.host (wordWrite 0x008 4#32)] },
      _, rfl, rfl, by decide⟩,
    ⟨{ tBusy 0#32 with status := { (tBusy 0#32).status with accerr := true }, sched := [.host (wordWrite 0x008 8#32)] },
      _, rfl, rfl, by decide⟩,
    ⟨{ tBusy 0#32 with sched := [.host (wordWrite 0x00C 0#32)] }, _, rfl, rfl, rfl⟩,
    ⟨{ tBusy 0#32 with sched := [.host (wordRead 0x010)] }, _, rfl, rfl, rfl⟩⟩

theorem witness_BusyChangesOnlyByIssueCompletionReset :
    (∃ s t : State, step s = .next t ∧ s.status.busy = false ∧ t.status.busy = true) ∧
    ∃ s t : State, step s = .next t ∧ s.status.busy = true ∧ t.status.busy = false :=
  ⟨⟨{ State.reset with sched := [.host (wordWrite 0x00C 0#32)] }, _, rfl, rfl, rfl⟩,
    ⟨tBusy 0#32, _, rfl, rfl, rfl⟩⟩

theorem witness_InterruptRisesAtCompletion :
    (∃ s t : State, step s = .next t ∧ s.irq = false ∧ t.irq = true) ∧
    ∃ (s t : State) (w : Word), s.sched = [.host (wordWrite 0x00C w)] ∧ s.status.busy = false ∧ step s = .next t :=
  ⟨⟨{ tBusy 0#32 with ie := true }, _, rfl, rfl, rfl⟩,
    ⟨{ State.reset with sched := [.host (wordWrite 0x00C 0#32)] }, _, 0#32, rfl, rfl, rfl⟩⟩

end Sys2Proof.Tests
end

namespace Sys2Proof.Proofs
open Sys2Proof Sys2Proof.Machine

/-- A residue below q that differs from x by a multiple of q is floormod(x, q). -/
theorem eq_floormod_of_dvd_sub {x : Int} {q r : Nat} (hr : r < q) (hdvd : (q : Int) ∣ x - r) :
    r = floormod x q := by
  have hmod : x % q = (r : Int) % q := Int.emod_eq_emod_iff_emod_sub_eq_zero.mpr (Int.emod_eq_zero_of_dvd hdvd)
  apply Int.ofNat_inj.mp
  calc (r : Int) = (r : Int) % q := (Int.emod_eq_of_lt (Int.natCast_nonneg r) (Int.ofNat_lt.mpr hr)).symm
    _ = x % q := hmod.symm
    _ = floormod x q := (floormod_cast x (Nat.zero_lt_of_lt hr)).symm

/-- Settles O1: floormod is the remainder of the Euclidean division, whose quotient by a natural number is the
floor. -/
theorem floormodIsCanonicalResidue : Obligations.FloormodIsCanonicalResidue := by
  intro x q hq
  have hcast : (floormod x q : Int) = x % q := floormod_cast x hq
  have hfloor : x.fdiv q = x / q := Int.fdiv_eq_ediv_of_nonneg x (Int.natCast_nonneg q)
  refine ⟨floormod_lt x hq, ?divides, ?floorForm, fun r hr hdvd => eq_floormod_of_dvd_sub hr hdvd⟩
  case divides => rw [hcast]; exact Int.dvd_self_sub_emod
  case floorForm => rw [hcast, hfloor, Int.emod_def]

end Sys2Proof.Proofs

namespace Sys2Proof.Proofs
open Sys2Proof Sys2Proof.Machine

/-! ### What the command in flight depends on -/

/-- `t` holds the same command in flight as `s`, on the same operands: everything that an executor step reads, and the
registers that the snapshot stands for (spec/10_state.md R35, R49). -/
structure SameCommand (s t : State) : Prop where
  inflight : t.inflight = s.inflight
  mem : t.mem = s.mem
  memWords : t.memWords = s.memWords
  rstN : t.rstN = s.rstN
  descs : t.descs = s.descs
  q : t.q = s.q
  sigma : t.sigma = s.sigma
  cmdLast : t.cmdLast = s.cmdLast
  busy : t.status.busy = s.status.busy
  err : t.status.err = s.status.err
  entropy : t.entropy = s.entropy

theorem sameCommand_rejectRead (s : State) : SameCommand s s.rejectRead := by constructor <;> rfl

theorem sameCommand_rejectWrite (s : State) : SameCommand s s.rejectWrite := by constructor <;> rfl

theorem sameCommand_answer (s : State) (w : Word) : SameCommand s (s.answer w) := by constructor <;> rfl

/-! ### Writes of CTRL and CMD -/

theorem writeTarget_ctrl_softReset (s : State) {w : Word} (h : w.getLsbD 1 = true) :
    s.writeTarget w .ctrl = { s.softReset with rdata := none } := by
  rw [State.writeTarget, State.writeEffect, State.writeCtrl, if_pos h]

theorem writeTarget_ctrl_ie (s : State) {w : Word} (h : w.getLsbD 1 = false) :
    s.writeTarget w .ctrl = { s with ie := w.getLsbD 0, rdata := none } := by
  rw [State.writeTarget, State.writeEffect, State.writeCtrl, if_neg (by rw [h]; exact Bool.false_ne_true)]

theorem writeTarget_cmd_busy {s : State} (w : Word) (h : s.status.busy = true) :
    s.writeTarget w .cmd = { s with status := s.status.onCommandOverrun, rdata := none } := by
  rw [State.writeTarget, State.writeEffect, State.writeCmd, if_pos h]

theorem writeTarget_cmd_idle {s : State} (w : Word) (h : s.status.busy = false) :
    s.writeTarget w .cmd = { s.issue w with rdata := none } := by
  rw [State.writeTarget, State.writeEffect, State.writeCmd, if_neg (by rw [h]; exact Bool.false_ne_true)]

/-- A write reaches no operand if its target is one that BUSY does not block, it is no soft reset and it issues no
command. -/
theorem sameCommand_writeTarget {s : State} {w : Word} {x : Target} (hx : x.blockedWhileBusy = false)
    (hctrl : x = .ctrl → w.getLsbD 1 = false) (hcmd : x = .cmd → s.status.busy = true) :
    SameCommand s (s.writeTarget w x) := by
  cases x with
  | id => constructor <;> rfl
  | reserved => constructor <;> rfl
  | status => constructor <;> rfl
  | ctrl => rw [writeTarget_ctrl_ie s (hctrl rfl)]; constructor <;> rfl
  | cmd => rw [writeTarget_cmd_busy w (hcmd rfl)]; constructor <;> rfl
  | q => cases hx
  | sigma => cases hx
  | descBase k => cases hx
  | descShape k => cases hx
  | mem i => cases hx

/-- No write raises DONE. -/
theorem writeTarget_done {s : State} {w : Word} {x : Target} (h : (s.writeTarget w x).status.done = true) :
    s.status.done = true := by
  cases x with
  | status => exact (Bool.and_eq_true_iff.1 h).1
  | ctrl =>
    cases hw : w.getLsbD 1 with
    | true => rw [writeTarget_ctrl_softReset s hw] at h; cases h
    | false => rw [writeTarget_ctrl_ie s hw] at h; exact h
  | cmd =>
    cases hb : s.status.busy with
    | true => rw [writeTarget_cmd_busy w hb] at h; exact h
    | false => rw [writeTarget_cmd_idle w hb] at h; cases h
  | _ => exact h

/-! ### The offsets of the registers with an effect of their own -/

theorem targetOf_eq_ctrl {off : Nat} (h : targetOf off = .ctrl) : off = 0x004 := by
  simp only [targetOf] at h
  split_ifs at h; assumption

theorem targetOf_eq_status {off : Nat} (h : targetOf off = .status) : off = 0x008 := by
  simp only [targetOf] at h
  split_ifs at h; assumption

theorem targetOf_eq_cmd {off : Nat} (h : targetOf off = .cmd) : off = 0x00C := by
  simp only [targetOf] at h
  split_ifs at h; assumption

/-! ### The invariant -/

/-- The invariant of a block with nothing in flight asks for little. -/
theorem inv_of_idle {t : State} (hb : t.status.busy = false) (hf : t.inflight = none)
    (he : t.status.err.toNat ≤ 5) (hw : t.mem.wf) (hm : ∀ p ∈ t.mem, p.1 < t.memWords)
    (hr : t.rstN = false → registersReset t ∧ t.mem = []) : t.Inv where
  busy_inflight := by rw [hb, hf]; rfl
  busy_done := by simp [hb]
  err_le := he
  busy_err := by simp [hb]
  snapshot := by simp [hf]
  draws := by simp [hf]
  mem_wf := hw
  mem_range := hm
  held := hr

/-- A change that leaves the command in flight alone and does not raise DONE keeps the invariant. -/
theorem inv_of_sameCommand {s t : State} (h : s.Inv) (hc : SameCommand s t)
    (hd : t.status.done = true → s.status.done = true) (hr : s.rstN = true) : t.Inv where
  busy_inflight := by rw [hc.busy, hc.inflight]; exact h.busy_inflight
  busy_done := fun ⟨hb, hdone⟩ => h.busy_done ⟨hc.busy ▸ hb, hd hdone⟩
  err_le := by rw [hc.err]; exact h.err_le
  busy_err := by rw [hc.busy, hc.err]; exact h.busy_err
  snapshot := fun fl hf => by
    have hs := h.snapshot fl (hc.inflight ▸ hf)
    simpa only [snapshotCurrent, hc.cmdLast, hc.descs, hc.q, hc.sigma] using hs
  draws := fun fl hf => by rw [hc.memWords]; exact h.draws fl (hc.inflight ▸ hf)
  mem_wf := by rw [hc.mem]; exact h.mem_wf
  mem_range := by rw [hc.mem, hc.memWords]; exact h.mem_range
  held := by simp [hc.rstN, hr]

/-- The invariant does not speak of the schedule, of the draws on offer and of the read data. -/
theorem inv_setPorts {s : State} (h : s.Inv) (turns : List Turn) (draws : List Word) (data : Option Word) :
    State.Inv { s with sched := turns, entropy := draws, rdata := data } :=
  ⟨h.busy_inflight, h.busy_done, h.err_le, h.busy_err, h.snapshot, h.draws, h.mem_wf, h.mem_range, h.held⟩

theorem inv_afterPop {s : State} (h : s.Inv) : s.afterPop.Inv := inv_setPorts h s.sched.tail s.entropy s.rdata

theorem inv_idle_of_not_busy {s : State} (h : s.Inv) (hb : s.status.busy = false) : s.inflight = none := by
  simpa [hb] using h.busy_inflight

/-! ### Reset -/

theorem registersReset_resetRegisters (s : State) : registersReset s.resetRegisters :=
  ⟨rfl, rfl, rfl, rfl, rfl, fun k => by simp [Desc.reset], rfl⟩

theorem registersReset_powerOnReset (s : State) : registersReset s.powerOnReset := registersReset_resetRegisters s

theorem registersReset_powerOn (n : Nat) : registersReset (State.powerOn n) :=
  ⟨rfl, rfl, rfl, rfl, rfl, fun k => by simp [State.powerOn, Desc.reset], rfl⟩

/-- Settles O53: after power-on nothing is in flight and memory is empty. -/
theorem invariantHoldsAtReset : Obligations.InvariantHoldsAtReset := by
  have hpowerOn : ∀ n, (State.powerOn n).Inv := fun n =>
    inv_of_idle rfl rfl (Nat.zero_le 5) List.Pairwise.nil (by simp [State.powerOn]) (by simp [State.powerOn])
  exact ⟨hpowerOn Config.refMemWords, hpowerOn⟩

theorem inv_powerOnReset (s : State) (level : Bool) : State.Inv { s.powerOnReset with rstN := level } :=
  inv_of_idle rfl rfl (Nat.zero_le 5) List.Pairwise.nil (by simp) fun _ => ⟨registersReset_powerOnReset s, rfl⟩

theorem inv_driveRstN {s : State} (h : s.Inv) (level : Bool) : (s.driveRstN level).Inv := by
  cases level with
  | false => exact inv_powerOnReset s false
  | true =>
    simp only [State.driveRstN, if_true]
    split
    · exact h
    · exact inv_powerOnReset s true

/-- The region that an abort overwrites lies in memory: the checks passed, or the region is empty. -/
theorem abortedRegion_le (fl : Inflight) (n : Nat) : (abortedRegion fl n).1 + (abortedRegion fl n).2 ≤ n := by
  unfold abortedRegion
  split
  · exact Nat.zero_le n
  · next i _ =>
    split
    · next hc =>
      cases hd : destRegion i fl with
      | none => exact Nat.zero_le n
      | some region => exact destInBounds_of_checks hc hd
    · exact Nat.zero_le n

theorem abort_mem_wf {s : State} (h : s.mem.wf) : s.abort.mem.wf := by
  unfold State.abort
  split
  · exact h
  · exact Memory.wf_writeAll _ h

theorem abort_mem_range {s : State} (h : ∀ p ∈ s.mem, p.1 < s.memWords) : ∀ p ∈ s.abort.mem, p.1 < s.memWords := by
  unfold State.abort
  split
  · exact h
  · next fl _ =>
    refine Memory.range_writeAll _ h fun e he => ?_
    have hregion := freeWrites_index he
    have hle := abortedRegion_le fl s.memWords
    omega

/-- Operand memory after a soft reset. -/
theorem softReset_mem (s : State) : s.softReset.mem = if s.status.busy then s.abort.mem else s.mem := by
  unfold State.softReset; split <;> rfl

/-- A soft reset leaves the parameter and the ports unchanged. -/
theorem softReset_ports (s : State) : s.softReset.memWords = s.memWords ∧ s.softReset.rstN = s.rstN ∧
    s.softReset.entropy = s.entropy ∧ s.softReset.sched = s.sched := by
  rw [softReset_eq]; exact ⟨rfl, rfl, rfl, rfl⟩

theorem registersReset_softReset (s : State) : registersReset s.softReset :=
  registersReset_resetRegisters (if s.status.busy then s.abort else s)

theorem softReset_mem_wf {s : State} (h : s.mem.wf) : s.softReset.mem.wf := by
  rw [softReset_mem]
  split
  · exact abort_mem_wf h
  · exact h

theorem softReset_mem_range {s : State} (h : ∀ p ∈ s.mem, p.1 < s.memWords) :
    ∀ p ∈ s.softReset.mem, p.1 < s.memWords := by
  rw [softReset_mem]
  split
  · exact abort_mem_range h
  · exact h

/-! ### Every step keeps the invariant -/

/-- ERR holds a code of spec/60_exceptions.md R152. -/
theorem errCode_bits_le (code : ErrCode) : code.bits.toNat ≤ 5 := by cases code <;> decide

/-- A command that ends with an error code keeps the invariant. -/
theorem inv_endedWith {s : State} (h : s.Inv) (hr : s.rstN = true) (code : ErrCode) :
    (endedWith s code.bits).Inv :=
  inv_of_idle rfl rfl (errCode_bits_le code) h.mem_wf h.mem_range (by simp [endedWith, hr])

/-- A command that succeeds keeps the invariant if it writes inside operand memory. -/
theorem inv_complete {s : State} (h : s.Inv) (hr : s.rstN = true) {fx : Effects}
    (hfx : ∀ e ∈ fx.elems, e.1 < s.memWords) : (s.complete .ok fx).Inv :=
  inv_of_idle rfl rfl (Nat.zero_le 5) (Memory.wf_writeAll _ h.mem_wf) (Memory.range_writeAll _ h.mem_range hfx)
    (by simp [hr])

/-- A draw that the GSAMP in flight still needs keeps the invariant. -/
theorem inv_draw {s : State} (h : s.Inv) (hr : s.rstN = true) {fl : Inflight} {d : DescIdx} {size : Nat}
    (hf : s.inflight = some fl) (hd : decode fl.word = .ok (.gsamp d size))
    (hc : checks (.gsamp d size) fl s.memWords = .ok) (hn : fl.draws.length < size) (z : Word) (rest : List Word) :
    State.Inv { s with entropy := rest, inflight := some { fl with draws := fl.draws ++ [z] } } where
  busy_inflight := h.busy_inflight.trans (by rw [hf]; rfl)
  busy_done := h.busy_done
  err_le := h.err_le
  busy_err := h.busy_err
  snapshot := by rintro _ ⟨⟩; exact h.snapshot fl hf
  draws := by
    rintro _ ⟨⟩
    have hc' : checks (.gsamp d size) { fl with draws := fl.draws ++ [z] } s.memWords = .ok := hc
    simp only [drawsWithin, hd, hc', if_true, List.length_append, List.length_singleton]
    omega
  mem_wf := h.mem_wf
  mem_range := h.mem_range
  held := by simp [hr]

/-- The issue of a command keeps the invariant. -/
theorem inv_issue {s : State} (h : s.Inv) (hr : s.rstN = true) (w : Word) : (s.issue w).Inv where
  busy_inflight := rfl
  busy_done := by simp
  err_le := Nat.zero_le 5
  busy_err := fun _ => rfl
  snapshot := by rintro _ ⟨⟩; exact ⟨rfl, rfl, rfl, rfl⟩
  draws := by
    rintro _ ⟨⟩
    unfold drawsWithin
    split
    · split
      · exact Nat.zero_le _
      · rfl
    · rfl
  mem_wf := h.mem_wf
  mem_range := h.mem_range
  held := by simp [hr]

/-- A soft reset keeps the invariant. -/
theorem inv_softReset {s : State} (h : s.Inv) (hr : s.rstN = true) : s.softReset.Inv := by
  obtain ⟨hwords, hrst, -, -⟩ := softReset_ports s
  refine inv_of_idle rfl rfl (Nat.zero_le 5) (softReset_mem_wf h.mem_wf) ?_ (by simp [hrst, hr])
  rw [hwords]
  exact softReset_mem_range h.mem_range

/-- A step of the command in flight keeps the invariant. -/
theorem inv_exec {s t : State} {fl : Inflight} {i : Instr} (h : s.Inv) (hr : s.rstN = true)
    (hf : s.inflight = some fl) (hd : decode fl.word = .ok i) (he : exec i s = .next t) : t.Inv := by
  cases exec_next he with
  | stays same _ => rw [same]; exact h
  | ended fl' _ _ ht => rw [ht]; exact inv_endedWith h hr _
  | draw fl' d size z rest hi hf' hc hn _ ht =>
    obtain rfl : fl' = fl := Option.some_inj.1 (hf'.symm.trans hf)
    subst hi
    rw [ht]; exact inv_draw h hr hf hd hc hn z rest
  | nopDone _ _ _ ht => rw [ht]; exact inv_complete h hr (by simp [noEffects])
  | done fl' fx d r c _ hc hshape hw ht =>
    have hregion : destRegion i fl' = some ((fl'.snap d).base.toNat, r * c) := by rw [destRegion, hshape]; rfl
    have hle := destInBounds_of_checks hc hregion
    rw [ht]
    exact inv_complete h hr fun e he => Nat.lt_of_lt_of_le (hw.elems e he).2 hle

theorem inv_executorTurn {s t : State} (h : s.Inv) (he : executorTurn s = .next t) : t.Inv := by
  cases executorTurn_next he with
  | idle _ ht => rw [ht]; exact h
  | illegal _ _ hr _ _ _ ht => rw [ht]; exact inv_endedWith h hr .illegal
  | runs fl i hr _ hf hd he => exact inv_exec h hr hf hd he

/-- A write of an operand register or of an element, which the block accepts while idle only, keeps the invariant. -/
theorem inv_writeTarget_operand {s : State} (h : s.Inv) (hr : s.rstN = true) {w : Word} {x : Target}
    (hx : x.blockedWhileBusy = true) (hacc : s.rejects x = false) : (s.writeTarget w x).Inv := by
  obtain ⟨hb, hrange⟩ : s.status.busy = false ∧ x.outOfRange s.memWords = false := by
    simpa [State.rejects, hx] using hacc
  have hf := inv_idle_of_not_busy h hb
  have hheld : s.rstN = false → registersReset (s.writeTarget w x) ∧ (s.writeTarget w x).mem = [] := by simp [hr]
  cases x with
  | id => cases hx
  | ctrl => cases hx
  | status => cases hx
  | cmd => cases hx
  | reserved => cases hx
  | q => exact inv_of_idle hb hf h.err_le h.mem_wf h.mem_range hheld
  | sigma => exact inv_of_idle hb hf h.err_le h.mem_wf h.mem_range hheld
  | descBase k => exact inv_of_idle hb hf h.err_le h.mem_wf h.mem_range hheld
  | descShape k => exact inv_of_idle hb hf h.err_le h.mem_wf h.mem_range hheld
  | mem i =>
    exact inv_of_idle hb hf h.err_le (Memory.wf_write h.mem_wf i _)
      (Memory.range_write h.mem_range (rejects_mem_false hacc).2 _) hheld

/-- An accepted write keeps the invariant. -/
theorem inv_writeTarget {s : State} (h : s.Inv) (hr : s.rstN = true) {w : Word} {x : Target}
    (hacc : s.rejects x = false) : (s.writeTarget w x).Inv := by
  cases hx : x.blockedWhileBusy with
  | true => exact inv_writeTarget_operand h hr hx hacc
  | false =>
    by_cases hreset : x = .ctrl ∧ w.getLsbD 1 = true
    · obtain ⟨rfl, hw⟩ := hreset
      rw [writeTarget_ctrl_softReset s hw]
      exact inv_setPorts (inv_softReset h hr) _ _ none
    · by_cases hissue : x = .cmd ∧ s.status.busy = false
      · obtain ⟨rfl, hb⟩ := hissue
        rw [writeTarget_cmd_idle w hb]
        exact inv_setPorts (inv_issue h hr w) _ _ none
      · exact inv_of_sameCommand h (sameCommand_writeTarget hx (by simpa using hreset) (by simpa using hissue))
          writeTarget_done hr

theorem inv_hostAccess {a : Access} {s t : State} (h : s.Inv) (ha : hostAccess a s = .next t) : t.Inv := by
  obtain ⟨hr, hnext⟩ := hostAccess_next ha
  cases hnext with
  | rejectedRead _ _ ht => rw [ht]; exact inv_of_sameCommand h (sameCommand_rejectRead s) id hr
  | rejectedWrite _ _ _ ht => rw [ht]; exact inv_of_sameCommand h (sameCommand_rejectWrite s) id hr
  | answered w _ _ _ ht => rw [ht]; exact inv_of_sameCommand h (sameCommand_answer s w) id hr
  | written w _ _ hacc ht => rw [ht]; exact inv_writeTarget h hr hacc

/-- Settles O54, by the turn that the step plays. -/
theorem stepKeepsInvariant : Obligations.StepKeepsInvariant := by
  intro s t h hstep
  have hpop := inv_afterPop h
  cases step_next hstep with
  | host a _ _ ha => exact inv_hostAccess hpop ha
  | executor he => exact inv_executorTurn hpop he
  | entropy z _ _ ht => rw [ht]; exact inv_setPorts h s.sched.tail (s.entropy ++ [z]) s.rdata
  | rstN level _ _ ht => rw [ht]; exact inv_driveRstN hpop level

end Sys2Proof.Proofs

namespace Sys2Proof.Proofs
open Sys2Proof Sys2Proof.Machine

/-! ### Two blocks with the same command in flight -/

/-- Two outcomes of an executor step agree: the next states hold the same command on the same operands, or the blocks
stop for the same reason. -/
def SameOutcome : StepOutcome → StepOutcome → Prop
  | .next t, .next t' => SameCommand t t'
  | .fault f, .fault f' => f' = f
  | .refused r, .refused r' => r' = r
  | _, _ => False

theorem SameOutcome.next {o o' : StepOutcome} {t : State} (h : SameOutcome o o') (ho : o = .next t) :
    ∃ t', o' = .next t' ∧ SameCommand t t' := by
  subst ho
  cases o' with
  | next t' => exact ⟨t', rfl, h⟩
  | fault f => exact h.elim
  | refused r => exact h.elim

theorem SameOutcome.fault {o o' : StepOutcome} {f : Fault} (h : SameOutcome o o') (ho : o = .fault f) :
    o' = .fault f := by
  subst ho
  cases o' with
  | next t' => exact h.elim
  | fault f' => exact congrArg _ h
  | refused r => exact h.elim

section
variable {s s' : State} (h : SameCommand s s')
include h

theorem sameCommand_complete (code : ErrCode) (fx : Effects) :
    SameCommand (s.complete code fx) (s'.complete code fx) where
  inflight := rfl
  mem := by rw [State.complete_mem, State.complete_mem, h.mem]
  memWords := h.memWords
  rstN := h.rstN
  descs := by rw [State.complete_descs, State.complete_descs, h.descs]
  q := h.q
  sigma := h.sigma
  cmdLast := h.cmdLast
  busy := rfl
  err := rfl
  entropy := h.entropy

theorem sameOutcome_succeed (fx? : Option Effects) : SameOutcome (s.succeed fx?) (s'.succeed fx?) := by
  cases fx? with
  | none => exact rfl
  | some fx => exact sameCommand_complete h .ok fx

theorem sameOutcome_takeDraw (fl : Inflight) : SameOutcome (s.takeDraw fl) (s'.takeDraw fl) := by
  unfold State.takeDraw
  rw [h.entropy]
  split
  · exact h
  · exact { h with inflight := rfl, entropy := rfl }

theorem sameOutcome_runChecked (i : Instr) {rule rule' : Inflight → StepOutcome}
    (hrule : ∀ fl, SameOutcome (rule fl) (rule' fl)) :
    SameOutcome (s.runChecked i rule) (s'.runChecked i rule') := by
  unfold State.runChecked
  rw [h.inflight, h.memWords]
  split
  · exact h
  · next fl _ =>
    split
    · exact hrule fl
    · exact sameCommand_complete h _ noEffects

/-- An executor step reads nothing but the command in flight and its operands. -/
theorem sameOutcome_exec (i : Instr) : SameOutcome (exec i s) (exec i s') := by
  cases i with
  | nop => exact sameOutcome_runChecked h .nop fun _ => sameOutcome_succeed h (some noEffects)
  | mmul d a b => exact sameOutcome_runChecked h _ fun fl => by rw [h.mem]; exact sameOutcome_succeed h _
  | madd d a b => exact sameOutcome_runChecked h _ fun fl => by rw [h.mem]; exact sameOutcome_succeed h _
  | mtrn d a => exact sameOutcome_runChecked h _ fun fl => by rw [h.mem]; exact sameOutcome_succeed h _
  | decb d v w => exact sameOutcome_runChecked h _ fun fl => by rw [h.mem]; exact sameOutcome_succeed h _
  | gsamp d size =>
    refine sameOutcome_runChecked h _ fun fl => ?_
    split
    · exact sameOutcome_takeDraw h fl
    · exact sameOutcome_succeed h _

end

/-- An access to a busy block leaves the command in flight alone, unless it is a soft reset. -/
theorem sameCommand_hostAccess {a : Access} {s t : State} (hb : s.status.busy = true)
    (ha : hostAccess a s = .next t) (hreset : ∀ w, a = wordWrite 0x004 w → w.getLsbD 1 = false) :
    SameCommand s t := by
  cases (hostAccess_next ha).2 with
  | rejectedRead _ _ ht => rw [ht]; exact sameCommand_rejectRead s
  | rejectedWrite _ _ _ ht => rw [ht]; exact sameCommand_rejectWrite s
  | answered w _ _ _ ht => rw [ht]; exact sameCommand_answer s w
  | written w hdir haligned hacc ht =>
    rw [ht]
    have hopen : (targetOf a.off.toNat).blockedWhileBusy = false := by
      simp only [State.rejects, hb, Bool.true_and, Bool.or_eq_false_iff] at hacc
      exact hacc.1
    exact sameCommand_writeTarget hopen
      (fun hx => hreset w (access_eq_wordWrite hdir haligned (targetOf_eq_ctrl hx))) fun _ => hb

/-- Settles O31: such an access leaves the command in flight and its operands alone, and an executor step reads
nothing else. -/
theorem hostCannotDisturbCommand : Obligations.HostCannotDisturbCommand := by
  intro a s s' hb ha hreset
  have h := sameCommand_hostAccess hb ha hreset
  refine ⟨h.inflight, h.mem, h.descs, h.q, h.sigma, h.cmdLast, h.busy.trans hb, h.err, h.entropy, fun i => ⟨?_, ?_⟩⟩
  · intro t ht
    obtain ⟨t', ht', hc⟩ := (sameOutcome_exec h i).next ht
    exact ⟨t', ht', hc.inflight, hc.mem, hc.descs, hc.entropy, hc.err, hc.busy⟩
  · intro f hf
    exact (sameOutcome_exec h i).fault hf

/-! ### The frame of a command -/

theorem writeShape_base (ds : Vector Desc 16) (sh : Option (DescIdx × BitVec 16 × BitVec 16)) (k : DescIdx) :
    (writeShape ds sh)[k].base = ds[k].base := by
  cases sh with
  | none => rfl
  | some x =>
    obtain ⟨d, r, c⟩ := x
    by_cases hk : k = d
    · subst hk; rw [writeShape_self]
    · rw [writeShape_other ds r c hk]

section
variable {i : Instr} {s t : State} (h : exec i s = .next t)
include h

theorem exec_frame : CommandFrame { s with entropy := t.entropy } t := by
  cases exec_next h with
  | stays same _ => subst same; constructor <;> rfl
  | ended _ _ _ ht => subst ht; constructor <;> rfl
  | draw _ _ _ _ _ _ _ _ _ _ ht => subst ht; constructor <;> rfl
  | nopDone _ _ _ ht => subst ht; exact complete_frame s .ok _
  | done _ _ _ _ _ _ _ _ _ ht => subst ht; exact complete_frame s .ok _

/-- Only a GSAMP takes draws. -/
theorem exec_entropy (hi : ∀ d size, i ≠ .gsamp d size) : t.entropy = s.entropy := by
  cases exec_next h with
  | stays same _ => rw [same]
  | ended _ _ _ ht => rw [ht]; rfl
  | draw _ d size _ _ hgsamp _ _ _ _ _ => exact absurd hgsamp (hi d size)
  | nopDone _ _ _ ht => rw [ht]; rfl
  | done _ _ _ _ _ _ _ _ _ ht => rw [ht]; rfl

/-- A command writes no element outside its destination region. -/
theorem exec_mem_outside {fl : Inflight} (hf : s.inflight = some fl) {x : Nat}
    (hx : ∀ d r c, resultShape i fl = some (d, r, c) →
      x < (fl.snap d).base.toNat ∨ (fl.snap d).base.toNat + r * c ≤ x) : t.mem.read x = s.mem.read x := by
  cases exec_next h with
  | stays same _ => rw [same]
  | ended _ _ _ ht => rw [ht]; rfl
  | draw _ _ _ _ _ _ _ _ _ _ ht => rw [ht]
  | nopDone _ _ _ ht => rw [ht]; rfl
  | done fl' fx d r c hf' _ hshape hw ht =>
    obtain rfl : fl' = fl := Option.some_inj.1 (hf'.symm.trans hf)
    rw [ht]; exact complete_outside s hw (hx d r c hshape)

/-- A command changes no descriptor but its destination. -/
theorem exec_descs_other {fl : Inflight} (hf : s.inflight = some fl) {k : DescIdx}
    (hk : ∀ d r c, resultShape i fl = some (d, r, c) → k ≠ d) : t.descs[k] = s.descs[k] := by
  cases exec_next h with
  | stays same _ => rw [same]
  | ended _ _ _ ht => rw [ht]; rfl
  | draw _ _ _ _ _ _ _ _ _ _ ht => rw [ht]
  | nopDone _ _ _ ht => rw [ht]; rfl
  | done fl' fx d r c hf' _ hshape hw ht =>
    obtain rfl : fl' = fl := Option.some_inj.1 (hf'.symm.trans hf)
    have hdescs : (s.complete .ok fx).descs = writeShape s.descs (some (d, BitVec.ofNat 16 r, BitVec.ofNat 16 c)) := by
      rw [State.complete_descs, if_pos rfl, hw.shape]
    rw [ht, hdescs]; exact writeShape_other _ _ _ (hk d r c hshape)

/-- A command changes the BASE of no descriptor. -/
theorem exec_descs_base (k : DescIdx) : t.descs[k].base = s.descs[k].base := by
  cases exec_next h with
  | stays same _ => rw [same]
  | ended _ _ _ ht => rw [ht]; rfl
  | draw _ _ _ _ _ _ _ _ _ _ ht => rw [ht]
  | nopDone _ _ _ ht => rw [ht]; rfl
  | done _ fx _ _ _ _ _ _ _ ht => rw [ht]; exact writeShape_base s.descs fx.shape k

end

/-- Settles O28, part by part. -/
theorem commandFrameHolds : Obligations.CommandFrameHolds := by
  intro i s t fl hf h
  exact ⟨exec_frame h, exec_entropy h, fun _ hx => exec_mem_outside h hf hx, fun _ hk => exec_descs_other h hf hk,
    exec_descs_base h⟩

/-! ### What a step does to the flags -/

/-- What a host access does to CTRL.IE and STATUS. -/
inductive AccessFlags (a : Access) (s t : State) : Prop where
  | unchanged (hst : t.status = s.status) (hie : t.ie = s.ie)
  | rejected (hst : t.status = s.status.onRejectedAccess) (hie : t.ie = s.ie)
  | softReset (w : Word) (ha : a = wordWrite 0x004 w) (hw : w.getLsbD 1 = true) (hst : t.status = Status.reset)
      (hie : t.ie = false)
  | ctrlIe (w : Word) (ha : a = wordWrite 0x004 w) (hst : t.status = s.status) (hie : t.ie = w.getLsbD 0)
  | cleared (w : Word) (ha : a = wordWrite 0x008 w) (hst : t.status = s.status.writeOneToClear w) (hie : t.ie = s.ie)
  | overrun (w : Word) (ha : a = wordWrite 0x00C w) (hb : s.status.busy = true)
      (hst : t.status = s.status.onCommandOverrun) (hie : t.ie = s.ie)
  | issued (w : Word) (ha : a = wordWrite 0x00C w) (hst : t.status = s.status.onIssue) (hie : t.ie = s.ie)
      (hlast : t.cmdLast = w)

theorem accessFlags_written {a : Access} {s : State} {w : Word} (hd : a.dir = .write w)
    (ha : a.isAlignedWord = true) : AccessFlags a s (s.writeTarget w (targetOf a.off.toNat)) := by
  cases hx : targetOf a.off.toNat with
  | ctrl =>
    have hoff := access_eq_wordWrite hd ha (targetOf_eq_ctrl hx)
    cases hw : w.getLsbD 1 with
    | true => rw [writeTarget_ctrl_softReset s hw]; exact .softReset w hoff hw rfl rfl
    | false => rw [writeTarget_ctrl_ie s hw]; exact .ctrlIe w hoff rfl rfl
  | status => exact .cleared w (access_eq_wordWrite hd ha (targetOf_eq_status hx)) rfl rfl
  | cmd =>
    have hoff := access_eq_wordWrite hd ha (targetOf_eq_cmd hx)
    cases hb : s.status.busy with
    | true => rw [writeTarget_cmd_busy w hb]; exact .overrun w hoff hb rfl rfl
    | false => rw [writeTarget_cmd_idle w hb]; exact .issued w hoff rfl rfl rfl
  | _ => exact .unchanged rfl rfl

theorem hostAccess_flags {a : Access} {s t : State} (h : hostAccess a s = .next t) : AccessFlags a s t := by
  cases (hostAccess_next h).2 with
  | rejectedRead _ _ ht => rw [ht]; exact .rejected rfl rfl
  | rejectedWrite _ _ _ ht => rw [ht]; exact .rejected rfl rfl
  | answered _ _ _ _ ht => rw [ht]; exact .unchanged rfl rfl
  | written w hd ha _ ht => rw [ht]; exact accessFlags_written hd ha

/-- A command keeps STATUS until it completes. -/
theorem exec_status {i : Instr} {s t : State} (h : exec i s = .next t) :
    t.status = s.status ∨ ∃ code, t.status = s.status.onCompletion code := by
  cases exec_next h with
  | stays same _ => exact .inl (by rw [same])
  | ended fl _ _ ht => exact .inr ⟨checks i fl s.memWords, by rw [ht]; rfl⟩
  | draw _ _ _ _ _ _ _ _ _ _ ht => exact .inl (by rw [ht])
  | nopDone _ _ _ ht => exact .inr ⟨.ok, by rw [ht]; rfl⟩
  | done _ _ _ _ _ _ _ _ _ ht => exact .inr ⟨.ok, by rw [ht]; rfl⟩

theorem executorTurn_flags {s t : State} (h : executorTurn s = .next t) :
    t.ie = s.ie ∧ (t.status = s.status ∨ s.status.busy = true ∧ ∃ code, t.status = s.status.onCompletion code) := by
  cases executorTurn_next h with
  | idle _ ht => rw [ht]; exact ⟨rfl, .inl rfl⟩
  | illegal _ _ _ hb _ _ ht => rw [ht]; exact ⟨rfl, .inr ⟨hb, .illegal, rfl⟩⟩
  | runs _ _ _ hb _ _ he => exact ⟨(exec_frame he).ie, (exec_status he).imp_right fun hc => ⟨hb, hc⟩⟩

/-- The schedule gives the executor the next turn: by name, or because it is exhausted. -/
def ExecutorIsNext (s : State) : Prop := s.sched = [] ∨ ∃ rest, s.sched = .executor :: rest

/-- A step plays the first turn of the schedule. -/
theorem step_of_sched_cons {s : State} {x : Turn} {rest : List Turn} (h : s.sched = x :: rest) :
    step s = takeTurn x s.afterPop := by
  simp only [step, nextTurn, State.afterPop, h, List.tail_cons]

/-- With the schedule exhausted a step is the executor's turn. -/
theorem step_of_sched_nil {s : State} (h : s.sched = []) : step s = executorTurn s.afterPop := by
  have hpop : s.afterPop = s := by rw [State.afterPop, h, List.tail_nil, ← h]
  simp only [step, nextTurn, h, hpop]

/-- What a step does to CTRL.IE and STATUS. -/
inductive StepFlags (s t : State) : Prop where
  | unchanged (hst : t.status = s.status) (hie : t.ie = s.ie)
  | completed (code : ErrCode) (hs : ExecutorIsNext s) (hb : s.status.busy = true)
      (hst : t.status = s.status.onCompletion code) (hie : t.ie = s.ie)
  | pinReset (level : Bool) (rest : List Turn) (hs : s.sched = .rstN level :: rest) (hst : t.status = Status.reset)
      (hie : t.ie = false)
  | accessed (a : Access) (rest : List Turn) (hs : s.sched = .host a :: rest) (ha : AccessFlags a s.afterPop t)

theorem stepFlags_executor {s t : State} (hs : ExecutorIsNext s) (h : executorTurn s.afterPop = .next t) :
    StepFlags s t := by
  obtain ⟨hie, hst | ⟨hb, code, hst⟩⟩ := executorTurn_flags h
  · exact .unchanged hst hie
  · exact .completed code hs hb hst hie

theorem stepFlags_rstN {s : State} {level : Bool} {rest : List Turn} (hs : s.sched = .rstN level :: rest) :
    StepFlags s (s.afterPop.driveRstN level) := by
  unfold State.driveRstN
  split
  · split
    · exact .unchanged rfl rfl
    · exact .pinReset level rest hs rfl rfl
  · exact .pinReset level rest hs rfl rfl

theorem step_flags {s t : State} (h : step s = .next t) : StepFlags s t := by
  cases hs : s.sched with
  | nil => exact stepFlags_executor (.inl hs) (step_of_sched_nil hs ▸ h)
  | cons x rest =>
    have hturn : takeTurn x s.afterPop = .next t := step_of_sched_cons hs ▸ h
    cases x with
    | host a => exact .accessed a rest hs (hostAccess_flags hturn)
    | executor => exact stepFlags_executor (.inr ⟨rest, hs⟩) hturn
    | entropy z => cases hturn; exact .unchanged rfl rfl
    | rstN level => cases hturn; exact stepFlags_rstN hs

/-! ### Sticky flags, BUSY and irq -/

section
variable {a : Access} {s t : State} (h : AccessFlags a s t)
include h

/-- The host accesses that clear CMDOVR. -/
theorem AccessFlags.cmdovr_falls (hs : s.status.cmdovr = true) (ht : t.status.cmdovr = false) :
    (∃ w, a = wordWrite 0x008 w ∧ w.getLsbD 2 = true) ∨ ∃ w, a = wordWrite 0x004 w ∧ w.getLsbD 1 = true := by
  cases h with
  | cleared w ha hst _ => exact .inl ⟨w, ha, by simpa [hst, hs] using ht⟩
  | softReset w ha hw _ _ => exact .inr ⟨w, ha, hw⟩
  | _ => simp_all

/-- The host accesses that clear ACCERR. -/
theorem AccessFlags.accerr_falls (hs : s.status.accerr = true) (ht : t.status.accerr = false) :
    (∃ w, a = wordWrite 0x008 w ∧ w.getLsbD 3 = true) ∨ ∃ w, a = wordWrite 0x004 w ∧ w.getLsbD 1 = true := by
  cases h with
  | cleared w ha hst _ => exact .inl ⟨w, ha, by simpa [hst, hs] using ht⟩
  | softReset w ha hw _ _ => exact .inr ⟨w, ha, hw⟩
  | _ => simp_all

/-- The host access that sets CMDOVR. -/
theorem AccessFlags.cmdovr_rises (hs : s.status.cmdovr = false) (ht : t.status.cmdovr = true) :
    s.status.busy = true ∧ ∃ w, a = wordWrite 0x00C w := by
  cases h with
  | overrun w ha hb _ _ => exact ⟨hb, w, ha⟩
  | _ => simp_all

/-- The host access that sets BUSY: an issue. -/
theorem AccessFlags.busy_rises (hs : s.status.busy = false) (ht : t.status.busy = true) :
    ∃ w, a = wordWrite 0x00C w ∧ t.cmdLast = w := by
  cases h with
  | issued w ha _ _ hlast => exact ⟨w, ha, hlast⟩
  | _ => simp_all

/-- The host access that clears BUSY: a soft reset. -/
theorem AccessFlags.busy_falls (hs : s.status.busy = true) (ht : t.status.busy = false) :
    ∃ w, a = wordWrite 0x004 w ∧ w.getLsbD 1 = true := by
  cases h with
  | softReset w ha hw _ _ => exact ⟨w, ha, hw⟩
  | _ => simp_all

/-- The host access that raises irq: a write of IE while DONE is set. -/
theorem AccessFlags.irq_rises (hs : s.irq = false) (ht : t.irq = true) :
    ∃ w, a = wordWrite 0x004 w ∧ w.getLsbD 0 = true ∧ s.status.done = true := by
  obtain ⟨hie', hdone'⟩ : t.ie = true ∧ t.status.done = true := by simpa [State.irq] using ht
  have hidle : s.ie = true → s.status.done = false := by simpa [State.irq] using hs
  cases h with
  | ctrlIe w ha hst hie => exact ⟨w, ha, hie ▸ hie', hst ▸ hdone'⟩
  | _ => simp_all

end

/-- Settles O55: outside a host access and the reset pin no step changes CMDOVR or ACCERR. -/
theorem errorFlagsAreSticky : Obligations.ErrorFlagsAreSticky := by
  intro s t h
  cases step_flags h with
  | unchanged hst _ => rw [hst]; simp +contextual
  | completed _ _ _ hst _ => rw [hst]; simp +contextual
  | pinReset level rest hs hst _ =>
    rw [hst]
    exact ⟨fun _ _ => .inr (.inr ⟨level, rest, hs⟩), fun _ _ => .inr (.inr ⟨level, rest, hs⟩), by simp, by simp⟩
  | accessed a rest hs ha =>
    refine ⟨fun h0 h1 => ?_, fun h0 h1 => ?_, fun h0 h1 => ?_, fun _ _ => ⟨a, rest, hs⟩⟩
    · rcases ha.cmdovr_falls h0 h1 with ⟨w, rfl, hw⟩ | ⟨w, rfl, hw⟩
      · exact .inl ⟨w, rest, hs, hw⟩
      · exact .inr (.inl ⟨w, rest, hs, hw⟩)
    · rcases ha.accerr_falls h0 h1 with ⟨w, rfl, hw⟩ | ⟨w, rfl, hw⟩
      · exact .inl ⟨w, rest, hs, hw⟩
      · exact .inr (.inl ⟨w, rest, hs, hw⟩)
    · obtain ⟨hb, w, rfl⟩ := ha.cmdovr_rises h0 h1
      exact ⟨hb, w, rest, hs⟩

/-- Settles O56, by what the step does to the flags. -/
theorem busyChangesOnlyByIssueCompletionReset : Obligations.BusyChangesOnlyByIssueCompletionReset := by
  intro s t h
  cases step_flags h with
  | unchanged hst _ => rw [hst]; simp +contextual
  | completed _ hs _ hst _ => exact ⟨by simp [hst], fun _ _ => .inl ⟨hs, by rw [hst]; rfl⟩⟩
  | pinReset level rest hs hst _ => exact ⟨by simp [hst], fun _ _ => .inr (.inr ⟨level, rest, hs⟩)⟩
  | accessed a rest hs ha =>
    refine ⟨fun h0 h1 => ?_, fun h0 h1 => ?_⟩
    · obtain ⟨w, rfl, hlast⟩ := ha.busy_rises h0 h1
      exact ⟨w, rest, hs, hlast⟩
    · obtain ⟨w, rfl, hw⟩ := ha.busy_falls h0 h1
      exact .inr (.inl ⟨w, rest, hs, hw⟩)

/-- The causes of a rise of irq in one step. -/
theorem step_irq_rises {s t : State} (h : step s = .next t) (h0 : s.irq = false) (h1 : t.irq = true) :
    (s.status.busy = true ∧ s.ie = true ∧ ExecutorIsNext s) ∨
    ∃ w rest, s.sched = .host (wordWrite 0x004 w) :: rest ∧ w.getLsbD 0 = true ∧ s.status.done = true := by
  cases step_flags h with
  | unchanged hst hie =>
    have hsame : t.irq = s.irq := by rw [State.irq, hst, hie]; rfl
    simp [hsame, h0] at h1
  | completed _ hs hb _ hie =>
    have hie' : t.ie = true := (Bool.and_eq_true_iff.1 h1).1
    exact .inl ⟨hb, hie ▸ hie', hs⟩
  | pinReset _ _ _ _ hie => simp [State.irq, hie] at h1
  | accessed a rest hs ha =>
    obtain ⟨w, rfl, hw, hdone⟩ := ha.irq_rises h0 h1
    exact .inr ⟨w, rest, hs, hw, hdone⟩

/-- An accepted CMD write of an idle block clears DONE. -/
theorem cmdWrite_done {s t : State} {w : Word} (hb : s.status.busy = false)
    (h : hostAccess (wordWrite 0x00C w) s = .next t) : t.status.done = false := by
  have hopen : s.rejects .cmd = false := by simp [State.rejects, hb, Target.outOfRange]
  rw [hostAccess_wordWrite (hostAccess_next h).1 (by decide) (by decide) targetOf_cmd, hopen,
    writeTarget_cmd_idle w hb] at h
  cases h
  rfl

/-- Settles O57: by the causes of a rise, and because the issue clears DONE. -/
theorem interruptRisesAtCompletion : Obligations.InterruptRisesAtCompletion := by
  refine ⟨fun s t h h0 h1 => step_irq_rises h h0 h1, fun s t w rest hs hb h => ?_⟩
  rw [step_of_sched_cons hs] at h
  have hdone : t.status.done = false := cmdWrite_done (s := s.afterPop) hb h
  rw [State.irq, hdone, Bool.and_false]

end Sys2Proof.Proofs

namespace Sys2Proof.Proofs
open Sys2Proof Sys2Proof.Machine

/-! ### The aborted region -/

/-- The region that an abort overwrites, element by element. -/
theorem inAbortedRegion_iff {s : State} {fl : Inflight} (hb : s.status.busy = true) (hf : s.inflight = some fl)
    (x : Nat) : InAbortedRegion s x ↔
      (abortedRegion fl s.memWords).1 ≤ x ∧
        x < (abortedRegion fl s.memWords).1 + (abortedRegion fl s.memWords).2 := by
  constructor
  · rintro ⟨fl', i, d, r, c, -, hf', hd, hc, hshape, hx⟩
    obtain rfl : fl' = fl := Option.some_inj.1 (hf'.symm.trans hf)
    simpa [abortedRegion, hd, hc, destRegion, hshape] using hx
  · intro hx
    unfold abortedRegion at hx
    split at hx
    · omega
    · next i hd =>
      split at hx
      · next hc =>
        cases hshape : resultShape i fl with
        | none => simp [destRegion, hshape] at hx
        | some shape =>
          obtain ⟨d, r, c⟩ := shape
          simp only [destRegion, hshape, Option.map_some, Option.getD_some] at hx
          exact ⟨fl, i, d, r, c, hb, hf, hd, hc, hshape, hx⟩
      · omega

/-- A soft reset leaves every element outside the aborted region unchanged. -/
theorem softReset_mem_outside {s : State} {x : Nat} (hx : ¬ InAbortedRegion s x) :
    s.softReset.mem.read x = s.mem.read x := by
  rw [softReset_mem]
  split
  · next hb =>
    cases hf : s.inflight with
    | none => simp only [State.abort, hf]
    | some fl =>
      rw [inAbortedRegion_iff hb hf] at hx
      exact abort_outside hf (by omega)
  · rfl

/-- A soft reset leaves a free value in every element of the aborted region. -/
theorem softReset_mem_inside {s : State} {x : Nat} (hx : InAbortedRegion s x) :
    ∃ k, s.softReset.mem.read x = some (Config.unspecifiedElem k) := by
  have hregion := hx
  obtain ⟨fl, _, _, _, _, hb, hf, -⟩ := hx
  rw [inAbortedRegion_iff hb hf] at hregion
  obtain ⟨offset, rfl⟩ := Nat.exists_eq_add_of_le hregion.1
  rw [softReset_mem, if_pos hb]
  exact ⟨_, abort_inside hf (by omega)⟩

/-! ### The reset table -/

/-- The ID register has one value. -/
theorem idRegister_value (r : IdRegister) : r.value = 0x5A510100#32 := by cases r; rfl

/-- Settles O2, reset by reset. -/
theorem resetTable : Obligations.ResetTable := by
  refine ⟨fun n => ⟨registersReset_powerOn n, rfl, rfl, fun _ => rfl⟩, fun s => ⟨?powerOn, ?soft⟩⟩
  case powerOn => exact ⟨registersReset_powerOnReset s, rfl, idRegister_value _, fun _ => rfl⟩
  case soft => exact ⟨registersReset_softReset s, rfl, idRegister_value _, fun _ hx => softReset_mem_outside hx⟩

/-! ### Accesses that are not rejected -/

/-- The block accepts an access to a target that BUSY does not block and that lies in range. -/
theorem rejects_eq_false {s : State} {x : Target} (hb : s.status.busy = false ∨ x.blockedWhileBusy = false)
    (hx : x.outOfRange s.memWords = false) : s.rejects x = false := by
  rw [State.rejects, hx, Bool.or_false, Bool.and_eq_false_iff]
  exact hb

section
variable {s : State} {off : Nat} {x : Target} (hr : s.rstN = true) (h : off < 8388608) (ha : off % 4 = 0)
  (hx : targetOf off = x) (hacc : s.rejects x = false)
include hr h ha hx hacc

theorem hostAccess_wordRead_accepted : hostAccess (wordRead off) s = s.readTarget x := by
  rw [hostAccess_wordRead hr h ha hx, hacc]; rfl

theorem hostAccess_wordWrite_accepted (w : Word) : hostAccess (wordWrite off w) s = .next (s.writeTarget w x) := by
  rw [hostAccess_wordWrite hr h ha hx, hacc]; rfl

end

/-- Settles O3: the write is accepted, also while BUSY, and performs the soft reset. -/
theorem softResetAbortsCommand : Obligations.SoftResetAbortsCommand := by
  intro s w hr hw
  have hacc : s.rejects .ctrl = false := rejects_eq_false (.inr rfl) rfl
  have hwrite := hostAccess_wordWrite_accepted hr (by decide) (by decide) targetOf_ctrl hacc w
  rw [writeTarget_ctrl_softReset s hw] at hwrite
  obtain ⟨hwords, hrst, hentropy, hsched⟩ := softReset_ports s
  refine ⟨_, hwrite, registersReset_softReset s, rfl, ?entReady, fun _ hx => softReset_mem_inside hx,
    fun _ hx => softReset_mem_outside hx, hwords, hrst.trans hr, hentropy, hsched⟩
  case entReady =>
    have hidle : s.softReset.status.busy = false := rfl
    simp [State.entReady, hidle]

/-! ### Register fields -/

theorem toNat_zero_append (n : Nat) {m : Nat} (v : BitVec m) : (0#n ++ v).toNat = v.toNat := by
  simp [BitVec.toNat_append]

theorem halfWord_eq_ofNat (v : BitVec 16) : halfWord v = BitVec.ofNat 32 v.toNat := by
  apply BitVec.eq_of_toNat_eq
  have hsmall : v.toNat < 2 ^ 32 := by omega
  rw [BitVec.toNat_ofNat, Nat.mod_eq_of_lt hsmall]
  exact toNat_zero_append 16 v

theorem baseWord_eq_ofNat (M : Desc) : M.baseWord = BitVec.ofNat 32 M.base.toNat := by
  apply BitVec.eq_of_toNat_eq
  have hsmall : M.base.toNat < 2 ^ 32 := by omega
  rw [BitVec.toNat_ofNat, Nat.mod_eq_of_lt hsmall]
  exact toNat_zero_append 12 M.base

theorem shapeWord_eq_ofNat (M : Desc) : M.shapeWord = BitVec.ofNat 32 (M.cols.toNat * 65536 + M.rows.toNat) := by
  apply BitVec.eq_of_toNat_eq
  have happend : M.shapeWord.toNat = M.cols.toNat <<< 16 ||| M.rows.toNat := BitVec.toNat_append M.cols M.rows
  have hcols := M.cols.isLt
  have hrows := M.rows.isLt
  rw [happend, ← Nat.shiftLeft_add_eq_or_of_lt hrows, Nat.shiftLeft_eq, BitVec.toNat_ofNat,
    Nat.mod_eq_of_lt (by omega)]

theorem extractLsb'_high_eq_ofNat (w : Word) : w.extractLsb' 16 16 = BitVec.ofNat 16 (w.toNat / 65536) := by
  rw [BitVec.extractLsb', Nat.shiftRight_eq_div_pow]

/-- Settles O5: ID is never blocked, holds one value, and stores nothing. -/
theorem idReadsConstant : Obligations.IdReadsConstant := by
  intro s hr
  have hacc : s.rejects .id = false := rejects_eq_false (.inr rfl) rfl
  refine ⟨?_, fun w => ?_, rfl⟩
  · rw [hostAccess_wordRead_accepted hr (by decide) (by decide) targetOf_id hacc, State.readTarget,
      idRegister_value]; rfl
  · rw [hostAccess_wordWrite_accepted hr (by decide) (by decide) targetOf_id hacc]; rfl

/-- CTRL as read, bit by bit. -/
theorem getLsbD_ctrlWord (s : State) (n : Nat) : s.ctrlWord.getLsbD n = if n = 0 then s.ie else false := by
  have happend := BitVec.getLsbD_append (x := 0#31) (y := BitVec.ofBool s.ie) (i := n)
  refine happend.trans ?_
  by_cases hn : n = 0
  · simp [hn]
  · simp [hn]

/-- Settles O6: CTRL is never blocked, and IE is the one bit it stores. -/
theorem ctrlHoldsInterruptEnable : Obligations.CtrlHoldsInterruptEnable := by
  refine ⟨fun _ => rfl, fun _ => rfl, fun s hr => ?_⟩
  have hacc : s.rejects .ctrl = false := rejects_eq_false (.inr rfl) rfl
  refine ⟨fun w hw => ?write, s.ctrlWord, ?read, ?bit0, fun n hn => ?others⟩
  case write =>
    rw [hostAccess_wordWrite_accepted hr (by decide) (by decide) targetOf_ctrl hacc, writeTarget_ctrl_ie s hw]
  case read => exact hostAccess_wordRead_accepted hr (by decide) (by decide) targetOf_ctrl hacc
  case bit0 => rw [getLsbD_ctrlWord, if_pos rfl]
  case others => rw [getLsbD_ctrlWord, if_neg (by omega)]

/-- Settles O7: the two registers store the low half word and read back zero-extended. -/
theorem parameterRegistersStoreLowHalf : Obligations.ParameterRegistersStoreLowHalf := by
  intro s hr hb
  have hq : s.rejects .q = false := rejects_eq_false (.inl hb) rfl
  have hsigma : s.rejects .sigma = false := rejects_eq_false (.inl hb) rfl
  refine ⟨fun w => ?_, fun w => ?_, ?_, ?_⟩
  · exact hostAccess_wordWrite_accepted hr (by decide) (by decide) targetOf_q hq w
  · exact hostAccess_wordWrite_accepted hr (by decide) (by decide) targetOf_sigma hsigma w
  · rw [hostAccess_wordRead_accepted hr (by decide) (by decide) targetOf_q hq, ← halfWord_eq_ofNat]; rfl
  · rw [hostAccess_wordRead_accepted hr (by decide) (by decide) targetOf_sigma hsigma, ← halfWord_eq_ofNat]; rfl

/-! ### STATUS -/

/-- STATUS as read, bit by bit. -/
theorem getLsbD_statusWord (st : Status) (n : Nat) : st.toWord.getLsbD n =
    if n = 0 then st.busy else if n = 1 then st.done else if n = 2 then st.cmdovr else if n = 3 then st.accerr
    else st.err.getLsbD (n - 4) := by
  have hbits : st.toWord.getLsbD n = BitVec.getLsbD (w := 24 + 4 + 1 + 1 + 1 + 1)
    (0#24 ++ st.err ++ BitVec.ofBool st.accerr ++ BitVec.ofBool st.cmdovr ++ BitVec.ofBool st.done
      ++ BitVec.ofBool st.busy) n := rfl
  rw [hbits]
  simp only [BitVec.getLsbD_append]
  match n with
  | 0 => simp
  | 1 => simp
  | 2 => simp
  | 3 => simp
  | k + 4 =>
    have herr : st.err.getLsbD k = true → k < 4 := BitVec.lt_of_getLsbD
    simpa using herr

theorem statusReset_toWord : Status.reset.toWord = 0#32 := by decide

/-- Settles O8: STATUS is never blocked, and its word has one bit or field per flag. -/
theorem statusReadsItsFields : Obligations.StatusReadsItsFields := by
  refine ⟨fun _ => ⟨statusReset_toWord, rfl⟩, fun s hr => ?_⟩
  have hacc : s.rejects .status = false := rejects_eq_false (.inr rfl) rfl
  refine ⟨s.status.toWord, hostAccess_wordRead_accepted hr (by decide) (by decide) targetOf_status hacc,
    getLsbD_statusWord _ 0, getLsbD_statusWord _ 1, getLsbD_statusWord _ 2, getLsbD_statusWord _ 3,
    fun n hn => ?err, fun n hn => ?reserved⟩
  case err =>
    rw [getLsbD_statusWord, Nat.add_sub_cancel_left]
    iterate 4 rw [if_neg (by omega)]
  case reserved =>
    have hbeyond : s.status.err.getLsbD (n - 4) = false := BitVec.getLsbD_of_ge _ _ (by omega)
    rw [getLsbD_statusWord, hbeyond]
    iterate 4 rw [if_neg (by omega)]

/-- A flag that a W1C bit clears. -/
theorem and_not_eq_ite (flag bit : Bool) : (flag && !bit) = if bit then false else flag := by
  cases bit <;> simp

/-- Settles O9: the write is accepted and clears the flags whose bit is 1. -/
theorem statusWriteClearsFlags : Obligations.StatusWriteClearsFlags := by
  intro s w hr
  have hacc : s.rejects .status = false := rejects_eq_false (.inr rfl) rfl
  exact ⟨_, hostAccess_wordWrite_accepted hr (by decide) (by decide) targetOf_status hacc w, rfl,
    and_not_eq_ite .., and_not_eq_ite .., and_not_eq_ite .., rfl, rfl⟩

/-! ### Descriptors -/

/-- Settles O12: the two registers of an idle block store and read back their fields of one descriptor. -/
theorem descriptorRegisters : Obligations.DescriptorRegisters := by
  refine ⟨fun n => ?reset, fun s k hr hb => ?_⟩
  case reset =>
    obtain ⟨-, -, -, -, -, hdescs, -⟩ := registersReset_powerOn n
    exact hdescs
  have hbase : s.rejects (.descBase k) = false := rejects_eq_false (.inl hb) rfl
  have hshape : s.rejects (.descShape k) = false := rejects_eq_false (.inl hb) rfl
  have hk := k.isLt
  refine ⟨fun w => ?_, fun w => ?_, ?_, ?_⟩
  · exact hostAccess_wordWrite_accepted hr (by omega) (by omega) (targetOf_descBase k) hbase w
  · rw [hostAccess_wordWrite_accepted hr (by omega) (by omega) (targetOf_descShape k) hshape,
      ← extractLsb'_high_eq_ofNat]
    rfl
  · rw [hostAccess_wordRead_accepted hr (by omega) (by omega) (targetOf_descBase k) hbase, ← baseWord_eq_ofNat]; rfl
  · rw [hostAccess_wordRead_accepted hr (by omega) (by omega) (targetOf_descShape k) hshape, ← shapeWord_eq_ofNat]; rfl

/-! ### Reserved offsets, and the window beyond memory -/

theorem targetOf_reserved {off : Nat} (h : (0x018 ≤ off ∧ off < 0x100) ∨ (0x180 ≤ off ∧ off < 0x400000)) :
    targetOf off = .reserved := by
  have hw : Config.windowBase = 0x400000 := rfl
  simp only [targetOf]
  iterate 8 rw [if_neg (by omega)]

/-- Settles O13: a reserved offset is never blocked, reads 0 and stores nothing. -/
theorem reservedOffsetsReadZero : Obligations.ReservedOffsetsReadZero := by
  intro s off hr ha hoff
  have hacc : s.rejects .reserved = false := rejects_eq_false (.inr rfl) rfl
  have htarget := targetOf_reserved hoff
  exact ⟨hostAccess_wordRead_accepted hr (by omega) ha htarget hacc,
    hostAccess_wordWrite_accepted hr (by omega) ha htarget hacc⟩

/-- Settles O17: a window index at or beyond MEM_WORDS is out of range whatever BUSY is. -/
theorem windowBeyondMemoryRejected : Obligations.WindowBeyondMemoryRejected := by
  intro s i hr hi hlt
  have hrej : s.rejects (.mem i) = true := by simp [State.rejects, Target.outOfRange, hi]
  have htarget : targetOf (0x400000 + 4 * i) = .mem i := targetOf_window i
  refine ⟨?_, fun w => ?_⟩
  · rw [hostAccess_wordRead hr (by omega) (by omega) htarget, hrej]; rfl
  · rw [hostAccess_wordWrite hr (by omega) (by omega) htarget, hrej]; rfl

end Sys2Proof.Proofs

namespace Sys2Proof.Proofs
open Sys2Proof Sys2Proof.Machine

/-! ### Rejected and accepted accesses -/

section
variable {a : Access} {s : State} (hr : s.rstN = true)
include hr

theorem hostAccess_read_rejected (hd : a.dir = .read)
    (hrej : a.isAlignedWord = false ∨ s.rejects (targetOf a.off.toNat) = true) :
    hostAccess a s = .next s.rejectRead := by
  rcases hrej with hrej | hrej <;> simp [hostAccess, hr, hd, hostRead, hrej]

theorem hostAccess_write_rejected {w : Word} (hd : a.dir = .write w)
    (hrej : a.isAlignedWord = false ∨ s.rejects (targetOf a.off.toNat) = true) :
    hostAccess a s = .next s.rejectWrite := by
  rcases hrej with hrej | hrej <;> simp [hostAccess, hr, hd, hostWrite, hrej]

theorem hostAccess_read_accepted (hd : a.dir = .read) (ha : a.isAlignedWord = true)
    (hacc : s.rejects (targetOf a.off.toNat) = false) : hostAccess a s = s.readTarget (targetOf a.off.toNat) := by
  simp [hostAccess, hr, hd, hostRead, ha, hacc]

end

theorem isAlignedWord_eq_false {a : Access} (h : a.off.toNat % 4 ≠ 0 ∨ a.be ≠ 0b1111#4) :
    a.isAlignedWord = false := by
  rw [Access.isAlignedWord, Bool.and_eq_false_iff, beq_eq_false_iff_ne, beq_eq_false_iff_ne]
  exact h

/-- Settles O14: the width rule comes before the address and before BUSY. -/
theorem unalignedAccessRejected : Obligations.UnalignedAccessRejected := by
  intro s off be hr h
  exact ⟨hostAccess_read_rejected hr rfl (.inl (isAlignedWord_eq_false h)),
    fun w => hostAccess_write_rejected hr rfl (.inl (isAlignedWord_eq_false h))⟩

/-! ### Reads change nothing that a read depends on -/

/-- An accepted read answers the same whatever was answered before it. -/
theorem readTarget_answer {s t : State} {x : Target} (v : Word) (h : s.readTarget x = .next t) :
    (s.answer v).readTarget x = .next t := by
  cases x with
  | mem i =>
    simp only [State.readTarget, State.readWindow, State.answer_mem] at h ⊢
    cases hread : s.mem.read i with
    | none => simp [hread] at h
    | some value => rw [hread] at h; exact h
  | _ => exact h

/-- Settles O19, by the two ways in which a read can answer with a next state. -/
theorem readsHaveNoSideEffect : Obligations.ReadsHaveNoSideEffect := by
  intro a s t hd h
  obtain ⟨hr, hnext⟩ := hostAccess_next h
  cases hnext with
  | rejectedRead _ hrej ht =>
    subst ht
    refine ⟨fun ha hacc => ?contradiction, fun _ => rfl, ⟨0#32, rfl⟩, ?again⟩
    case contradiction => simp [ha, hacc] at hrej
    case again => exact ⟨_, hostAccess_read_rejected (s := s.rejectRead) hr hd hrej, rfl⟩
  | answered w _ ha hacc ht =>
    subst ht
    refine ⟨fun _ _ => ⟨rfl, rfl⟩, fun hrej => ?contradiction, ⟨w, rfl⟩, ?again⟩
    case contradiction => simp [ha, hacc] at hrej
    case again =>
      rw [hostAccess_read_accepted hr hd ha hacc] at h
      have hsame := readTarget_answer w h
      exact ⟨_, (hostAccess_read_accepted (s := s.answer w) hr hd ha hacc).trans hsame, rfl⟩
  | rejectedWrite w hw => simp [hd] at hw
  | written w hw => simp [hd] at hw

/-! ### The memory window -/

theorem targetOf_windowOffset (i : Nat) : targetOf (0x400000 + 4 * i) = .mem i := targetOf_window i

theorem rejects_mem_eq_false {s : State} {i : Nat} (hb : s.status.busy = false) (hi : i < s.memWords) :
    s.rejects (.mem i) = false :=
  rejects_eq_false (.inl hb) (decide_eq_false (Nat.not_le_of_lt hi))

section
variable {s : State} {i : Nat} (hr : s.rstN = true) (hb : s.status.busy = false) (hi : i < s.memWords)
  (hlt : i < 2 ^ 20)
include hr hb hi hlt

theorem hostAccess_windowRead : hostAccess (wordRead (0x400000 + 4 * i)) s = s.readWindow i :=
  hostAccess_wordRead_accepted hr (by omega) (by omega) (targetOf_windowOffset i) (rejects_mem_eq_false hb hi)

theorem hostAccess_windowWrite (w : Word) :
    hostAccess (wordWrite (0x400000 + 4 * i) w) s = .next (s.writeTarget w (.mem i)) :=
  hostAccess_wordWrite_accepted hr (by omega) (by omega) (targetOf_windowOffset i) (rejects_mem_eq_false hb hi) w

end

/-- Settles O16: a window write is one element write, and a window read answers the element as a half word. -/
theorem windowStoresElement : Obligations.WindowStoresElement := by
  intro s i hr hb hi hlt
  refine ⟨fun w => ⟨_, hostAccess_windowWrite hr hb hi hlt w, rfl, ?element, fun x hx => ?others⟩,
    fun v hv => ?read⟩
  case element => exact Memory.read_write_self ..
  case others => exact Memory.read_write_other _ _ hx
  case read => rw [hostAccess_windowRead hr hb hi hlt, State.readWindow, hv, ← halfWord_eq_ofNat]; rfl

/-! ### Commands that read an unwritten element -/

theorem mmulEntry_eq_none {A B : Desc} {m : Memory} {q i j k : Nat} (hk : k < A.cols.toNat)
    (h : A.elem m i k = none ∨ B.elem m k j = none) : mmulEntry A B m q i j = none := by
  rw [mmulEntry, mmulAcc_eq_none hk h, Option.map_none]

theorem maddEntry_eq_none {A B : Desc} {m : Memory} {q i j : Nat}
    (h : A.elem m i j = none ∨ B.elem m i j = none) : maddEntry A B m q i j = none := by
  rcases h with h | h <;> simp [maddEntry, h]

theorem decbEntry_eq_none {V W : Desc} {m : Memory} {q i j : Nat}
    (h : V.elem m i j = none ∨ W.elem m i j = none) : decbEntry V W m q i j = none := by
  rcases h with h | h <;> simp [decbEntry, h]

/-- A command whose checks pass and one of whose entries has no value stops the model. -/
theorem checkedMatrix_fault {s : State} {fl : Inflight} {ins : Instr} {d : DescIdx} {r c : Inflight → Nat}
    {entry : Inflight → Nat → Nat → Option Elem} {i j : Nat} (hf : s.inflight = some fl)
    (hc : checks ins fl s.memWords = .ok) (hi : i < r fl) (hj : j < c fl) (h : entry fl i j = none) :
    (s.runChecked ins fun fl => s.succeed (matrixEffects fl d (r fl) (c fl) (entry fl))) =
      .fault .commandReadUnwritten := by
  rw [runChecked_ok hf hc, matrixEffects_none hi hj h]
  rfl

/-- Settles O18: the host's read directly; a command's because its result has an entry without a value. -/
theorem unwrittenReadFaults : Obligations.UnwrittenReadFaults := by
  refine ⟨fun s i hr hb hi hlt hnone => ?host,
    fun s fl d a b i j hf => ⟨?mmul, fun hi hj => ⟨?mtrn, ?elementwise⟩⟩⟩
  case host => rw [hostAccess_windowRead hr hb hi hlt, State.readWindow, hnone]
  case mmul =>
    intro hc k hi hj hk hnone
    exact checkedMatrix_fault hf hc hi hj (mmulEntry_eq_none hk hnone)
  case mtrn =>
    intro hnone hc
    exact checkedMatrix_fault hf hc hj hi hnone
  case elementwise =>
    intro hnone
    exact ⟨fun hc => checkedMatrix_fault hf hc hi hj (maddEntry_eq_none hnone),
      fun hc => checkedMatrix_fault hf hc hi hj (decbEntry_eq_none hnone)⟩

end Sys2Proof.Proofs

namespace Sys2Proof.Laws.FieldForm

/-! ### The value of a field, and a word from its fields (R82) -/

theorem opcField_toNat (w : Word) : (opcField w).toNat = w.toNat / 268435456 := by
  rw [opcField, BitVec.extractLsb'_toNat, Nat.shiftRight_eq_div_pow]
  omega

theorem immField_toNat (w : Word) : (immField w).toNat = w.toNat / 4096 % 65536 := by
  rw [immField, BitVec.extractLsb'_toNat, Nat.shiftRight_eq_div_pow]

theorem dField_toNat (w : Word) : (dField w).val = w.toNat / 256 % 16 := by
  rw [dField_val, BitVec.extractLsb'_toNat, Nat.shiftRight_eq_div_pow]

theorem aField_toNat (w : Word) : (aField w).val = w.toNat / 16 % 16 := by
  rw [aField_val, BitVec.extractLsb'_toNat, Nat.shiftRight_eq_div_pow]

theorem bField_toNat (w : Word) : (bField w).val = w.toNat % 16 := by
  rw [bField_val, BitVec.extractLsb'_toNat, Nat.shiftRight_zero]

theorem immField_eq_zero_iff (w : Word) : immField w = 0 ↔ (immField w).toNat = 0 := BitVec.toNat_inj.symm

/-- The field that R86 wants 0 in a NOP is every field but OPC. -/
theorem low28_eq_zero_iff (w : Word) :
    w.extractLsb' 0 28 = 0 ↔ (immField w).toNat = 0 ∧ dField w = 0 ∧ aField w = 0 ∧ bField w = 0 := by
  rw [← BitVec.toNat_inj, BitVec.extractLsb'_toNat, Nat.shiftRight_zero, Fin.ext_iff, Fin.ext_iff, Fin.ext_iff,
    immField_toNat, dField_toNat, aField_toNat, bField_toNat]
  simp only [BitVec.ofNat_eq_ofNat, BitVec.toNat_ofNat, Fin.val_zero]
  omega

theorem hasFields_self (w : Word) :
    HasFields w (opcField w).toNat (immField w).toNat (dField w) (aField w) (bField w) := ⟨rfl, rfl, rfl, rfl, rfl⟩

theorem hasFields_iff {w : Word} {opc imm : Nat} {d a b : DescIdx} : HasFields w opc imm d a b ↔
    (opcField w).toNat = opc ∧ (immField w).toNat = imm ∧ dField w = d ∧ aField w = a ∧ bField w = b :=
  ⟨fun h => ⟨h.opc, h.imm, h.d, h.a, h.b⟩, fun ⟨hopc, himm, hd, ha, hb⟩ => ⟨hopc, himm, hd, ha, hb⟩⟩

section
variable {w : Word} {opc imm : Nat} {d a b : DescIdx} (h : HasFields w opc imm d a b)
include h

theorem HasFields.opc_lt : opc < 16 := h.opc ▸ (opcField w).isLt

theorem HasFields.imm_lt : imm < 65536 := h.imm ▸ (immField w).isLt

/-- The formula of R82, read from the word to its fields. -/
theorem HasFields.toNat_eq : w.toNat = opc * 268435456 + imm * 4096 + d.val * 256 + a.val * 16 + b.val := by
  obtain ⟨rfl, rfl, rfl, rfl, rfl⟩ := h
  rw [opcField_toNat, immField_toNat, dField_toNat, aField_toNat, bField_toNat]
  omega

/-- Every bit of a word lies in one of its five fields. -/
theorem HasFields.cmd32_eq : cmd32 opc imm d a b = w :=
  BitVec.eq_of_toNat_eq ((cmd32_toNat h.opc_lt h.imm_lt d a b).trans h.toNat_eq.symm)

end

/-- A word is determined by its five fields. -/
theorem eq_iff_hasFields (w v : Word) :
    w = v ↔ HasFields w (opcField v).toNat (immField v).toNat (dField v) (aField v) (bField v) :=
  ⟨fun h => h ▸ hasFields_self v, fun h => h.cmd32_eq.symm.trans (hasFields_self v).cmd32_eq⟩

/-! ### The words that carry a command (R86, R87) -/

/-- The word has the opcode of the command, its operands, and 0 in every field that R86 says must be zero. -/
def Carries (w : Word) : Instr → Prop
  | .nop => HasFields w 0 0 0 0 0
  | .mmul d a b => HasFields w 1 0 d a b
  | .madd d a b => HasFields w 2 0 d a b
  | .mtrn d a => HasFields w 3 0 d a 0
  | .gsamp d size => HasFields w 4 size d 0 0
  | .decb d v x => HasFields w 5 0 d v x

theorem carries_encode {i : Instr} (h : i.wellFormed = true) : Carries (encode i) i := by
  cases i with
  | nop => exact nop
  | mmul d a b => exact mmul d a b
  | madd d a b => exact madd d a b
  | mtrn d a => exact mtrn d a
  | gsamp d size => exact gsamp d size h
  | decb d v w => exact decb d v w

theorem wellFormed_of_carries {w : Word} {i : Instr} (h : Carries w i) : i.wellFormed = true := by
  cases i with
  | gsamp d size => exact decide_eq_true h.imm_lt
  | _ => rfl

theorem encode_of_carries {w : Word} {i : Instr} (h : Carries w i) : encode i = w := by
  cases i <;> exact HasFields.cmd32_eq h

/-! ### The decoder -/

theorem legalIf_eq_ok {ok : Bool} {i j : Instr} : legalIf ok j = .ok i ↔ ok = true ∧ j = i := by
  cases ok <;> simp [legalIf]

theorem legalIf_eq_mustBeZero {ok : Bool} {j : Instr} (h : ∀ i, legalIf ok j ≠ .ok i) :
    legalIf ok j = .error .mustBeZero := by
  cases ok with
  | false => rfl
  | true => exact absurd rfl (h j)

theorem carries_of_decode {w : Word} {i : Instr} (h : decode w = .ok i) : Carries w i := by
  unfold decode at h
  split at h
  case h_7 => cases h
  all_goals
    rename_i hopc
    obtain ⟨hzero, rfl⟩ := legalIf_eq_ok.mp h
    simp only [Bool.and_eq_true, beq_iff_eq, immField_eq_zero_iff, low28_eq_zero_iff] at hzero
  case h_1 => obtain ⟨himm, hd, ha, hb⟩ := hzero; exact ⟨hopc, himm, hd, ha, hb⟩
  case h_4 => exact ⟨hopc, hzero.1, rfl, rfl, hzero.2⟩
  case h_5 => exact ⟨hopc, rfl, rfl, hzero.1, hzero.2⟩
  all_goals exact ⟨hopc, hzero, rfl, rfl, rfl⟩

theorem decode_of_carries {w : Word} {i : Instr} (h : Carries w i) : decode w = .ok i := by
  cases i <;>
    (obtain ⟨hopc, himm, hd, ha, hb⟩ := h
     simp only [decode, hopc, legalIf_eq_ok, Bool.and_eq_true, beq_iff_eq, immField_eq_zero_iff, low28_eq_zero_iff,
       himm, hd, ha, hb, and_self])

theorem decode_reservedOpcode {w : Word} (h : 6 ≤ (opcField w).toNat) : decode w = .error .reservedOpcode := by
  unfold decode
  split
  case h_7 => rfl
  all_goals omega

theorem decode_mustBeZero {w : Word} (hopc : (opcField w).toNat < 6) (h : ∀ i, decode w ≠ .ok i) :
    decode w = .error .mustBeZero := by
  revert h
  unfold decode
  split
  case h_7 => simp only [imp_false] at *; omega
  all_goals exact legalIf_eq_mustBeZero

/-! ### The match and mask table (R86) -/

/-- The command of the same row whose operands are the fields of the word. -/
def withOperandsOf (w : Word) : Instr → Instr
  | .nop => .nop
  | .mmul _ _ _ => .mmul (dField w) (aField w) (bField w)
  | .madd _ _ _ => .madd (dField w) (aField w) (bField w)
  | .mtrn _ _ => .mtrn (dField w) (aField w)
  | .gsamp _ _ => .gsamp (dField w) (immField w).toNat
  | .decb _ _ _ => .decb (dField w) (aField w) (bField w)

theorem row_withOperandsOf (w : Word) (i : Instr) : (withOperandsOf w i).row = i.row := by
  cases i <;> rfl

theorem withOperandsOf_of_carries {w : Word} {i : Instr} (h : Carries w i) : withOperandsOf w i = i := by
  cases i <;> (obtain ⟨-, himm, hd, ha, hb⟩ := h; simp only [withOperandsOf, himm, hd, ha, hb])

/-- Every field of a mask is all ones, so that the row fixes the field of the word, or 0, so that the field is an
operand. -/
theorem row_covers_iff (w : Word) (i : Instr) : i.row.covers w = true ↔ Carries w (withOperandsOf w i) := by
  have fixed4 (x : BitVec 4) : x &&& 15#4 = x := BitVec.and_allOnes
  have fixed16 (x : BitVec 16) : x &&& 65535#16 = x := BitVec.and_allOnes
  rw [OpcodeRow.covers, beq_iff_eq]
  cases i <;>
    simp [Instr.row, withOperandsOf, Carries, eq_iff_hasFields, hasFields_iff, opcField, immField, dField, aField,
      bField, BitVec.extractLsb'_and, fixed4, fixed16]

theorem row_mem_opcodeRows (i : Instr) : i.row ∈ opcodeRows := by
  cases i <;> simp [Instr.row, opcodeRows]

theorem exists_row_eq {r : OpcodeRow} (h : r ∈ opcodeRows) : ∃ i : Instr, i.row = r := by
  simp only [opcodeRows, List.mem_cons, List.not_mem_nil, or_false] at h
  obtain rfl | rfl | rfl | rfl | rfl | rfl := h
  exacts [⟨.nop, rfl⟩, ⟨.mmul 0 0 0, rfl⟩, ⟨.madd 0 0 0, rfl⟩, ⟨.mtrn 0 0, rfl⟩, ⟨.gsamp 0 0, rfl⟩,
    ⟨.decb 0 0 0, rfl⟩]

/-- A row covers exactly the words that decode to a command of that row. -/
theorem covers_iff_decode {r : OpcodeRow} {w : Word} (hr : r ∈ opcodeRows) :
    r.covers w = true ↔ ∃ i, decode w = .ok i ∧ i.row = r := by
  constructor
  · intro h
    obtain ⟨i, rfl⟩ := exists_row_eq hr
    exact ⟨withOperandsOf w i, decode_of_carries ((row_covers_iff w i).mp h), row_withOperandsOf w i⟩
  · rintro ⟨i, hi, rfl⟩
    have hc := carries_of_decode hi
    rwa [row_covers_iff, withOperandsOf_of_carries hc]

end Sys2Proof.Laws.FieldForm

namespace Sys2Proof.Proofs
open Sys2Proof Sys2Proof.Machine Sys2Proof.Laws.FieldForm

/-- Settles O20: the word of a well-formed command carries that command. -/
theorem decodeOfEncode : Obligations.DecodeOfEncode :=
  fun _ h => decode_of_carries (carries_encode h)

/-- Settles O21: a word that decodes carries the command, and its five fields make up the whole word. -/
theorem encodeOfDecode : Obligations.EncodeOfDecode :=
  fun _ _ h => ⟨wellFormed_of_carries (carries_of_decode h), encode_of_carries (carries_of_decode h)⟩

/-- Settles O22: a row covers the words that decode to a command of it, and a word decodes to one command. -/
theorem decodeFollowsMatchTable : Obligations.DecodeFollowsMatchTable := by
  have hrow (w : Word) (i : Instr) (hi : decode w = .ok i) : i.row ∈ opcodeRows ∧ i.row.covers w = true :=
    ⟨row_mem_opcodeRows i, (covers_iff_decode (row_mem_opcodeRows i)).mpr ⟨i, hi, rfl⟩⟩
  refine ⟨fun w => ⟨fun ⟨i, hi⟩ => ⟨i.row, hrow w i hi⟩, fun ⟨r, hr, h⟩ => ?decodes⟩, hrow,
    fun w r r' hr hr' h h' => ?same⟩
  case decodes =>
    obtain ⟨i, hi, -⟩ := (covers_iff_decode hr).mp h
    exact ⟨i, hi⟩
  case same =>
    obtain ⟨i, hi, rfl⟩ := (covers_iff_decode hr).mp h
    obtain ⟨j, hj, rfl⟩ := (covers_iff_decode hr').mp h'
    cases hi.symm.trans hj
    rfl

/-! ### Illegal words (R88, R89) -/

/-- An executor's turn completes an illegal word with ERR_ILLEGAL (spec/40_command_protocol.md R108). -/
theorem executorTurn_illegal {s : State} {fl : Inflight} {e : Illegal} (hr : s.rstN = true)
    (hb : s.status.busy = true) (hf : s.inflight = some fl) (he : decode fl.word = .error e) :
    executorTurn s = .next (endedWith s 2#4) := by
  have hrun : executorTurn s = .next (s.raiseError .illegal) := by simp [executorTurn, hr, hb, hf, runInflight, he]
  rw [hrun, raiseError_eq s (by decide)]
  rfl

/-- Settles O23: no command's word has a nonzero must-be-zero field, and the executor ends an illegal word with code 2
whether the schedule names it or is exhausted. -/
theorem illegalWordCompletesWithCode2 : Obligations.IllegalWordCompletesWithCode2 := by
  refine ⟨fun w h => ?reserved, fun w h => ?mustBeZero,
    fun s fl e hr hb hf he => ⟨fun hs => ?exhausted, fun rest hs => ?named⟩⟩
  case reserved => exact decode_reservedOpcode (by rw [opcField_toNat]; exact h)
  case mustBeZero =>
    refine decode_mustBeZero (by rw [opcField_toNat]; omega) fun i hi => ?_
    have hzero : (0 : DescIdx).val = 0 := rfl
    rw [ne_eq, ← BitVec.toNat_inj, BitVec.toNat_zero] at h
    cases i <;>
      (have hw := HasFields.toNat_eq (carries_of_decode hi)
       have himm := HasFields.imm_lt (carries_of_decode hi)
       omega)
  case exhausted =>
    have hpop : s.afterPop = s := by rw [State.afterPop, hs, List.tail_nil, ← hs]
    rw [step_of_sched_nil hs, hpop, executorTurn_illegal hr hb hf he]
  case named =>
    have hpop : s.afterPop = { s with sched := rest } := by rw [State.afterPop, hs, List.tail_cons]
    rw [step_of_sched_cons hs, hpop]
    exact executorTurn_illegal (s := { s with sched := rest }) hr hb hf he

/-! ### The assembler (R91, R92) -/

/-- The one check of R92: an instruction is given only when it is well-formed. -/
theorem parseItem_legal {mn : List Char} {ops : List (List Char)} {it : AsmItem} (h : parseItem mn ops = some it) :
    it.legal = true := by
  cases it with
  | word w => rfl
  | instr i =>
    unfold parseItem at h
    split at h
    · split at h
      · simp at h
      · cases h
    · obtain ⟨j, -, hj⟩ := Option.bind_eq_some_iff.mp h
      obtain ⟨hlegal, heq⟩ := Option.ite_none_right_eq_some.mp hj
      cases heq
      exact hlegal

theorem asmChars_legal {line : List Char} {items : List AsmItem} {it : AsmItem} (h : asmChars line = some items)
    (hit : it ∈ items) : it.legal = true := by
  simp only [asmChars] at h
  split at h
  · cases h; cases hit
  · obtain ⟨x, hx, rfl⟩ := Option.map_eq_some_iff.mp h
    obtain rfl := List.mem_singleton.mp hit
    exact parseItem_legal hx

/-- Settles O25: the assembler gives well-formed commands only, and the word of such a command decodes to it. -/
theorem assemblerEmitsLegalWords : Obligations.AssemblerEmitsLegalWords :=
  fun _ _ _ h hi => decodeOfEncode _ (asmChars_legal h hi)

/-- Settles O24, by running the assembler, the encoder and the decoder. -/
theorem workedEncodings : Obligations.WorkedEncodings := by
  unfold Obligations.WorkedEncodings
  decide

end Sys2Proof.Proofs

namespace Sys2Proof.Proofs
open Sys2Proof Sys2Proof.Machine Sys2Proof.Laws.FieldForm

/-! ### What a command does, by its checks and its draws -/

/-- The effects of a command by its own rule (spec/40_command_protocol.md R101); none if the rule reads an unwritten
element. -/
def ruleEffects (fl : Inflight) (m : Memory) : Instr → Option Effects
  | .nop => some noEffects
  | .mmul d a b => mmulResult fl m d a b
  | .madd d a b => maddResult fl m d a b
  | .mtrn d a => mtrnResult fl m d a
  | .gsamp d size => some (gsampResult fl d size)
  | .decb d v w => decbResult fl m d v w

/-- The command still needs a draw: only a GSAMP does (spec/40_command_protocol.md R102). -/
def NeedsDraw (fl : Inflight) (i : Instr) : Prop := ∃ d size, i = .gsamp d size ∧ fl.draws.length < size

section
variable {i : Instr} {s : State} {fl : Inflight} (hf : s.inflight = some fl)
include hf

theorem exec_of_failed_check {code : ErrCode} (hc : checks i fl s.memWords = code) (hcode : code ≠ .ok) :
    exec i s = .next (endedWith s code.bits) := by
  subst hc
  cases i <;> exact runChecked_error hf hcode

theorem exec_of_needsDraw (hc : checks i fl s.memWords = .ok) (hn : NeedsDraw fl i) : exec i s = s.takeDraw fl := by
  obtain ⟨d, size, rfl, hlt⟩ := hn
  exact (runChecked_ok hf hc).trans (if_pos hlt)

theorem exec_of_ready (hc : checks i fl s.memWords = .ok) (hn : ¬ NeedsDraw fl i) :
    exec i s = s.succeed (ruleEffects fl s.mem i) := by
  cases i with
  | gsamp d size => exact (runChecked_ok hf hc).trans (if_neg fun hlt => hn ⟨d, size, rfl, hlt⟩)
  | _ => exact runChecked_ok hf hc

/-- A command that takes or awaits a draw stays in flight. -/
theorem takeDraw_inflight : ∃ t fl', s.takeDraw fl = .next t ∧ t.inflight = some fl' := by
  unfold State.takeDraw
  split
  · exact ⟨s, fl, rfl, hf⟩
  · exact ⟨_, _, rfl, rfl⟩

end

/-- A command other than GSAMP needs no draw. -/
theorem not_needsDraw {fl : Inflight} {i : Instr} (hi : ∀ d size, i ≠ .gsamp d size) : ¬ NeedsDraw fl i :=
  fun ⟨d, size, h, _⟩ => hi d size h

/-- Settles O29: a failed check or a result completes the command, and a command without a result has read an unwritten
element. -/
theorem otherCommandsAreAlwaysReady : Obligations.OtherCommandsAreAlwaysReady := by
  intro i s fl hf hi
  by_cases hc : checks i fl s.memWords = .ok
  · rw [exec_of_ready hf hc (not_needsDraw hi)]
    cases ruleEffects fl s.mem i with
    | none => exact .inr rfl
    | some fx => exact .inl ⟨_, rfl, rfl, rfl, rfl⟩
  · exact .inl ⟨_, exec_of_failed_check hf rfl hc, rfl, rfl, rfl⟩

/-! ### Two blocks that complete the same command -/

/-- The shape that a successful command writes: the result shape, in the 16-bit fields of a descriptor
(spec/40_command_protocol.md R103, R110). -/
def writtenShape (i : Instr) (fl : Inflight) : Option (DescIdx × BitVec 16 × BitVec 16) :=
  (resultShape i fl).map fun (d, r, c) => (d, BitVec.ofNat 16 r, BitVec.ofNat 16 c)

theorem ruleEffects_shape {fl : Inflight} {m : Memory} {i : Instr} {fx : Effects}
    (h : ruleEffects fl m i = some fx) : fx.shape = writtenShape i fl := by
  cases i with
  | nop => cases h; rfl
  | gsamp d size => cases h; rfl
  | mmul d a b => exact (matrixEffects_within h).shape
  | madd d a b => exact (matrixEffects_within h).shape
  | mtrn d a => exact (matrixEffects_within h).shape
  | decb d v w => exact (matrixEffects_within h).shape

theorem complete_ok_descs (s : State) {i : Instr} {fl : Inflight} {fx : Effects}
    (hfx : fx.shape = writtenShape i fl) : (s.complete .ok fx).descs = writeShape s.descs (writtenShape i fl) := by
  rw [State.complete_descs, if_pos rfl, hfx]

theorem errCode_bits_eq_zero {code : ErrCode} : code.bits = 0#4 ↔ code = .ok := by
  cases code <;> decide

/-- The completion `t'` of a block that was in `s'` agrees with the completion `t` of another block that had the same
command in flight. -/
structure CompletesAlike (i : Instr) (fl : Inflight) (t s' t' : State) : Prop where
  idle : t'.inflight = none
  mem : t'.mem = t.mem
  err : t'.status.err = t.status.err
  base : ∀ k : DescIdx, t'.descs[k].base = s'.descs[k].base
  shape : ∀ d r c, resultShape i fl = some (d, r, c) → t.status.err = 0#4 →
    t'.descs[d].rows = t.descs[d].rows ∧ t'.descs[d].cols = t.descs[d].cols
  others : ∀ k : DescIdx, (∀ d r c, resultShape i fl = some (d, r, c) → k = d → t.status.err ≠ 0#4) →
    t'.descs[k] = s'.descs[k]

/-- A failed check changes operand memory and the descriptors of neither block. -/
theorem completesAlike_error {s s' : State} (hm : s'.mem = s.mem) (i : Instr) (fl : Inflight) {code : ErrCode}
    (hcode : code ≠ .ok) : CompletesAlike i fl (endedWith s code.bits) s' (endedWith s' code.bits) where
  idle := rfl
  mem := hm
  err := rfl
  base := fun _ => rfl
  shape := fun _ _ _ _ herr => absurd (errCode_bits_eq_zero.1 herr) hcode
  others := fun _ _ => rfl

/-- The same effects write the same elements and the same shape in both blocks. -/
theorem completesAlike_ok {s s' : State} (hm : s'.mem = s.mem) {i : Instr} {fl : Inflight} {fx : Effects}
    (hfx : fx.shape = writtenShape i fl) : CompletesAlike i fl (s.complete .ok fx) s' (s'.complete .ok fx) where
  idle := rfl
  mem := by rw [State.complete_mem, State.complete_mem, hm]
  err := rfl
  base := writeShape_base s'.descs fx.shape
  shape := fun d r c hshape _ => by
    have hd (u : State) : (u.complete .ok fx).descs[d] =
        { base := u.descs[d].base, rows := BitVec.ofNat 16 r, cols := BitVec.ofNat 16 c } := by
      rw [complete_ok_descs u hfx, writtenShape, hshape]
      exact writeShape_self ..
    rw [hd, hd]
    exact ⟨rfl, rfl⟩
  others := fun k hk => by
    rw [complete_ok_descs s' hfx, writtenShape]
    cases hshape : resultShape i fl with
    | none => rfl
    | some x =>
      obtain ⟨d, r, c⟩ := x
      have hne : k ≠ d := fun hkd => hk d r c hshape hkd rfl
      exact writeShape_other s'.descs _ _ hne

/-- Settles O30: the checks and the rule of a command read nothing else, so that both blocks fail the same check, have
the same effects, or have none. -/
theorem commandReadsOnlyInflightAndMemory : Obligations.CommandReadsOnlyInflightAndMemory := by
  intro i s s' fl hf hf' hm hw
  suffices h : (∀ t, exec i s = .next t → t.inflight = none →
        ∃ t', exec i s' = .next t' ∧ CompletesAlike i fl t s' t') ∧
      ∀ f, exec i s = .fault f → exec i s' = .fault f by
    obtain ⟨hcompletes, hfaults⟩ := h
    refine ⟨fun t ht hidle => ?_, hfaults⟩
    obtain ⟨t', ht', alike⟩ := hcompletes t ht hidle
    exact ⟨t', ht', alike.idle, alike.mem, alike.err, alike.base, alike.shape, alike.others⟩
  by_cases hc : checks i fl s.memWords = .ok
  · have hc' : checks i fl s'.memWords = .ok := hw ▸ hc
    by_cases hn : NeedsDraw fl i
    · obtain ⟨u, fl', hu, hflight⟩ := takeDraw_inflight hf
      rw [exec_of_needsDraw hf hc hn, hu]
      exact ⟨by rintro _ ⟨⟩ hidle; simp [hflight] at hidle, nofun⟩
    · rw [exec_of_ready hf hc hn, exec_of_ready hf' hc' hn, hm]
      cases hfx : ruleEffects fl s.mem i with
      | none => exact ⟨nofun, fun _ h => h⟩
      | some fx =>
        refine ⟨?_, nofun⟩
        rintro _ ⟨⟩ -
        exact ⟨_, rfl, completesAlike_ok hm (ruleEffects_shape hfx)⟩
  · have hcodes : checks i fl s'.memWords = checks i fl s.memWords := by rw [hw]
    rw [exec_of_failed_check hf rfl hc, exec_of_failed_check hf' hcodes hc]
    refine ⟨?_, nofun⟩
    rintro _ ⟨⟩ -
    exact ⟨_, rfl, completesAlike_error hm i fl hc⟩

/-! ### The first check that fails -/

theorem modulusCheck_passes {i : Instr} {fl : Inflight} (hq : usesModulus i = true → 2 ≤ fl.q.toNat) :
    ¬ (usesModulus i && decide (fl.q.toNat < 2)) = true := by
  rw [Bool.and_eq_true, decide_eq_true_eq]
  exact fun ⟨hu, hlt⟩ => Nat.not_lt.2 (hq hu) hlt

section
variable {i : Instr} {s : State} {fl : Inflight} (hf : s.inflight = some fl)
include hf

theorem exec_modulus (hu : usesModulus i = true) (hq : fl.q.toNat < 2) : exec i s = .next (endedWith s 3#4) :=
  exec_of_failed_check hf (code := .modulus) (by simp [checks, hu, hq]) nofun

variable (hq : usesModulus i = true → 2 ≤ fl.q.toNat)
include hq

theorem exec_param (hu : usesSigma i = true) (hsigma : fl.sigma = 0#16) : exec i s = .next (endedWith s 4#4) := by
  refine exec_of_failed_check hf (code := .param) ?_ nofun
  rw [checks, if_neg (modulusCheck_passes hq), if_pos (by simp [hu, hsigma])]

variable (hsigma : usesSigma i = true → fl.sigma ≠ 0#16)
include hsigma

theorem exec_dim (hs : shapeOk i fl = false) : exec i s = .next (endedWith s 1#4) := by
  refine exec_of_failed_check hf (code := .dim) ?_ nofun
  rw [checks, if_neg (modulusCheck_passes hq), if_neg (by simpa using hsigma), if_pos (by rw [hs]; rfl)]

theorem exec_bounds (hs : shapeOk i fl = true) (hb : boundsOk i fl s.memWords = false) :
    exec i s = .next (endedWith s 5#4) := by
  refine exec_of_failed_check hf (code := .bounds) ?_ nofun
  rw [checks, if_neg (modulusCheck_passes hq), if_neg (by simpa using hsigma), if_neg (by simp [hs]),
    if_pos (by simp [hb])]

end

theorem inBounds_iff {M : Desc} {n : Nat} : M.inBounds n = true ↔ InMemory M n := decide_eq_true_iff

/-- The bounds check of a command with a destination (spec/40_command_protocol.md R111). -/
theorem boundsOk_iff {i : Instr} {fl : Inflight} {n : Nat} {d : DescIdx} {r c : Nat}
    (hshape : resultShape i fl = some (d, r, c)) :
    boundsOk i fl n = true ↔
      (∀ k ∈ sources i, InMemory (fl.snap k) n) ∧ (fl.snap d).base.toNat + r * c ≤ n := by
  simp [boundsOk, destInBounds, destRegion, hshape, regionInBounds, inBounds_iff]

/-- The bounds check of a command with two sources. -/
theorem boundsOk_pair_iff {i : Instr} {fl : Inflight} {n : Nat} {d a b : DescIdx} {r c : Nat}
    (hshape : resultShape i fl = some (d, r, c)) (hsources : sources i = [a, b]) :
    boundsOk i fl n = true ↔
      InMemory (fl.snap a) n ∧ InMemory (fl.snap b) n ∧ (fl.snap d).base.toNat + r * c ≤ n := by
  simp [boundsOk_iff hshape, hsources, and_assoc]

/-- Settles O27, clause by clause: the checks before the one named pass, and that one fails. -/
theorem checksFailInOrder : Obligations.ChecksFailInOrder := by
  intro s fl hf
  refine ⟨fun d a b hq => ?modulus, fun d size hq => ?gsampModulus, fun d size hq h0 => ?gsampParam,
    fun d size hq h0 hb => ?gsampBounds, fun d a b hq hs => ?mmulDim, fun d a b hq hs hb => ?mmulBounds,
    fun d a b hq hs => ?elementwiseDim, fun d a b hq hr hc hb => ?elementwiseBounds, fun d a hb => ?mtrnBounds⟩
  case modulus => exact ⟨exec_modulus hf rfl hq, exec_modulus hf rfl hq, exec_modulus hf rfl hq⟩
  case gsampModulus => exact exec_modulus hf rfl hq
  case gsampParam => exact exec_param hf (fun _ => hq) rfl (BitVec.eq_of_toNat_eq h0)
  case gsampBounds =>
    have hsigma : fl.sigma ≠ 0#16 := fun h => h0 (congrArg BitVec.toNat h)
    refine exec_bounds hf (fun _ => hq) (fun _ => hsigma) rfl (Bool.eq_false_iff.2 fun h => ?_)
    have hdest := ((boundsOk_iff rfl).1 h).2
    omega
  case mmulDim => exact exec_dim hf (fun _ => hq) nofun (beq_false_of_ne hs)
  case mmulBounds =>
    exact exec_bounds hf (fun _ => hq) nofun (beq_iff_eq.2 hs)
      (Bool.eq_false_iff.2 (mt (boundsOk_pair_iff rfl rfl).1 hb))
  case elementwiseDim =>
    have hshape : shapeOk (.madd d a b) fl = false := by
      rw [shapeOk, Bool.and_eq_false_iff, beq_eq_false_iff_ne, beq_eq_false_iff_ne]
      exact hs
    exact ⟨exec_dim hf (fun _ => hq) nofun hshape, exec_dim hf (fun _ => hq) nofun hshape⟩
  case elementwiseBounds =>
    have hshape : shapeOk (.madd d a b) fl = true := by
      rw [shapeOk, Bool.and_eq_true, beq_iff_eq, beq_iff_eq]
      exact ⟨hr, hc⟩
    have hbounds : boundsOk (.madd d a b) fl s.memWords = false :=
      Bool.eq_false_iff.2 (mt (boundsOk_pair_iff rfl rfl).1 hb)
    exact ⟨exec_bounds hf (fun _ => hq) nofun hshape hbounds, exec_bounds hf (fun _ => hq) nofun hshape hbounds⟩
  case mtrnBounds =>
    refine exec_bounds hf nofun nofun rfl (Bool.eq_false_iff.2 fun h => hb ?_)
    obtain ⟨hsources, hdest⟩ := (boundsOk_iff rfl).1 h
    exact ⟨hsources a (List.mem_singleton.2 rfl), hdest⟩

/-! ### Issue, the executor's turn, and NOP -/

/-- Settles O10: an idle block accepts a CMD write and issues its word, and CMD is never blocked for a read. -/
theorem cmdWriteIssuesCommand : Obligations.CmdWriteIssuesCommand := by
  have hacc (s : State) : s.rejects .cmd = false := rejects_eq_false (.inr rfl) rfl
  refine ⟨fun s w hr hb => ?write, fun s hr => ?read, fun _ => rfl⟩
  case write =>
    rw [hostAccess_wordWrite_accepted hr (by decide) (by decide) targetOf_cmd (hacc s), writeTarget_cmd_idle w hb]
    rfl
  case read => exact hostAccess_wordRead_accepted hr (by decide) (by decide) targetOf_cmd (hacc s)

/-- The executor's turn of a busy block runs the command whose word is in flight. -/
theorem executorTurn_runs {s : State} {fl : Inflight} {i : Instr} (hr : s.rstN = true) (hb : s.status.busy = true)
    (hf : s.inflight = some fl) (hd : decode fl.word = .ok i) : executorTurn s = exec i s := by
  simp only [executorTurn, runInflight, hr, hb, hf, hd, Bool.and_self, if_true]

theorem afterPop_of_sched_nil {s : State} (h : s.sched = []) : s.afterPop = s := by
  rw [State.afterPop, h, List.tail_nil, ← h]

theorem afterPop_of_sched_cons {s : State} {x : Turn} {rest : List Turn} (h : s.sched = x :: rest) :
    s.afterPop = { s with sched := rest } := by
  rw [State.afterPop, h, List.tail_cons]

/-- Settles O26, by the turn that the step plays. -/
theorem stepRunsCommandInFlight : Obligations.StepRunsCommandInFlight := by
  refine ⟨fun s fl i hr hb hf hd => ⟨fun hs => ?exhausted, fun rest hs => ?named⟩, fun s a rest hs => ?host⟩
  case exhausted => rw [step_of_sched_nil hs, afterPop_of_sched_nil hs, executorTurn_runs hr hb hf hd]
  case named =>
    rw [step_of_sched_cons hs, afterPop_of_sched_cons hs]
    exact executorTurn_runs (s := { s with sched := rest }) hr hb hf hd
  case host => rw [step_of_sched_cons hs, afterPop_of_sched_cons hs]; rfl

theorem exec_nop {s : State} {fl : Inflight} (hf : s.inflight = some fl) :
    exec .nop s = .next (endedWith s 0#4) := by
  have hc : checks .nop fl s.memWords = .ok := rfl
  exact runChecked_ok hf hc

/-- The word of NOP is 0 (spec/30_encoding.md R86). -/
theorem decode_eq_nop_iff (w : Word) : decode w = .ok .nop ↔ w = 0#32 := by
  have hzero : encode .nop = 0#32 := rfl
  constructor
  · intro h
    rw [← (encodeOfDecode w .nop h).2, hzero]
  · rintro rfl
    exact hzero ▸ decodeOfEncode .nop rfl

/-- Settles O32: NOP has no check to fail and no effect. -/
theorem nopCompletes : Obligations.NopCompletes := by
  have hdone : Status.toWord { busy := false, done := true, cmdovr := false, accerr := false, err := 0#4 } = 0x2#32 :=
    by decide
  exact ⟨fun _ _ hf => exec_nop hf, decode_eq_nop_iff, fun _ => ⟨_, exec_nop rfl, hdone, rfl⟩⟩

end Sys2Proof.Proofs

namespace Sys2Proof.Proofs
open Sys2Proof Sys2Proof.Machine

/-! ### The matrix commands on written operands -/

/-- The entries that `Holds` speaks of, as the commands read them. -/
theorem elem_of_holds {M : Desc} {m : Memory} {r c i j : Nat} {x : Nat → Nat → Elem} (h : Holds M m r c x)
    (hi : i < r) (hj : j < c) : M.elem m i j = some (x i j) := h i j hi hj

/-- A command that uses the modulus and has two sources passes its checks. -/
theorem checks_pair_eq_ok {i : Instr} {fl : Inflight} {n : Nat} {d a b : DescIdx} {r c : Nat}
    (hsigma : usesSigma i = false) (hshape : resultShape i fl = some (d, r, c)) (hsources : sources i = [a, b])
    (hq : 2 ≤ fl.q.toNat) (hok : shapeOk i fl = true) (ha : InMemory (fl.snap a) n) (hb : InMemory (fl.snap b) n)
    (hd : (fl.snap d).base.toNat + r * c ≤ n) : checks i fl n = .ok :=
  checks_eq_ok.2 ⟨fun _ => hq, by simp [hsigma], hok, (boundsOk_pair_iff hshape hsources).2 ⟨ha, hb, hd⟩⟩

/-- Settles O33: the checks pass, and the accumulator of each entry is the sum of the products. -/
theorem mmulWritesProduct : Obligations.MmulWritesProduct := by
  intro s fl d a b x y hf hq hdim ha hb hd hx hy
  have hc : checks (.mmul d a b) fl s.memWords = .ok :=
    checks_pair_eq_ok rfl rfl rfl hq (beq_iff_eq.2 hdim) ha hb hd
  rw [exec_of_ready hf hc (not_needsDraw nofun)]
  exact succeed_matrix s fun i j hi hj =>
    mmulEntry_eq (fun k hk => elem_of_holds hx hi hk) (fun k hk => elem_of_holds hy (hdim ▸ hk) hj)

/-- Settles O34: the checks pass, and each entry is the reduced sum of two written elements. -/
theorem maddWritesSum : Obligations.MaddWritesSum := by
  intro s fl d a b x y hf hq hrows hcols ha hb hd hx hy
  have hc : checks (.madd d a b) fl s.memWords = .ok :=
    checks_pair_eq_ok rfl rfl rfl hq (by simp [shapeOk, hrows, hcols]) ha hb hd
  rw [exec_of_ready hf hc (not_needsDraw nofun)]
  exact succeed_matrix s fun i j hi hj =>
    maddEntry_eq (elem_of_holds hx hi hj) (elem_of_holds hy (hrows ▸ hi) (hcols ▸ hj))

/-- Settles O35: MTRN has only its bounds to check, and entry (i, j) is Elem(A, j, i). -/
theorem mtrnWritesTranspose : Obligations.MtrnWritesTranspose := by
  intro s fl d a x hf ha hd hx
  have hc : checks (.mtrn d a) fl s.memWords = .ok :=
    checks_eq_ok.2 ⟨nofun, nofun, rfl, (boundsOk_iff rfl).2 ⟨by simpa [sources] using ha, hd⟩⟩
  rw [exec_of_ready hf hc (not_needsDraw nofun)]
  exact succeed_matrix s fun i j hi hj => elem_of_holds hx hj hi

/-! ### The accumulator -/

/-- The wrapping register holds the sum of the products mod 2^64. -/
theorem mmulAcc64_toNat (x y : Nat → Elem) (n : Nat) :
    (mmulAcc64 x y n).toNat = (∑ k ∈ Finset.range n, (x k).toNat * (y k).toNat) % 2 ^ 64 := by
  induction n with
  | zero => rfl
  | succ n ih =>
    have hx : (x n).toNat % 2 ^ 64 = (x n).toNat := Nat.mod_eq_of_lt (by have := (x n).isLt; omega)
    have hy : (y n).toNat % 2 ^ 64 = (y n).toNat := Nat.mod_eq_of_lt (by have := (y n).isLt; omega)
    rw [mmulAcc64, BitVec.toNat_add, BitVec.toNat_mul, BitVec.toNat_setWidth, BitVec.toNat_setWidth, hx, hy, ih,
      ← Nat.add_mod, Finset.sum_range_succ]

/-- Each of the n products is at most (2^16 − 1)^2. -/
theorem sum_products_le (x y : Nat → Elem) (n : Nat) :
    ∑ k ∈ Finset.range n, (x k).toNat * (y k).toNat ≤ n * 65535 ^ 2 := by
  have hproduct (k : Nat) : (x k).toNat * (y k).toNat ≤ 65535 ^ 2 := by
    rw [pow_two]
    exact Nat.mul_le_mul (Nat.le_of_lt_succ (x k).isLt) (Nat.le_of_lt_succ (y k).isLt)
  simpa using Finset.sum_le_card_nsmul (Finset.range n) _ _ fun k _ => hproduct k

/-- Settles O36: the sum is at most 65535·(2^16 − 1)^2, so that reducing it mod 2^64 leaves it unchanged. -/
theorem accumulatorNeverOverflows : Obligations.AccumulatorNeverOverflows := by
  intro A B m i j K x y hK hx hy
  have hle : ∑ k ∈ Finset.range K, (x k).toNat * (y k).toNat ≤ 65535 * 65535 ^ 2 :=
    (sum_products_le x y K).trans (Nat.mul_le_mul_right _ hK)
  refine ⟨_, mmulAcc_eq_sum hx hy, hle, by omega, ?register, fun q _ => floormod_natCast _ q⟩
  case register => rw [mmulAcc64_toNat, Nat.mod_eq_of_lt (by omega)]

/-! ### MADD is commutative -/

theorem shapeOk_madd_iff {fl : Inflight} {d a b : DescIdx} :
    shapeOk (.madd d a b) fl = true ↔ (fl.snap a).rows = (fl.snap b).rows ∧ (fl.snap a).cols = (fl.snap b).cols := by
  rw [shapeOk, Bool.and_eq_true, beq_iff_eq, beq_iff_eq]

theorem shapeOk_madd_comm (fl : Inflight) (d a b : DescIdx) :
    shapeOk (.madd d a b) fl = shapeOk (.madd d b a) fl := by
  rw [Bool.eq_iff_iff, shapeOk_madd_iff, shapeOk_madd_iff, eq_comm, eq_comm (a := (fl.snap a).cols)]

theorem resultShape_madd_comm {fl : Inflight} {d a b : DescIdx} (h : shapeOk (.madd d a b) fl = true) :
    resultShape (.madd d a b) fl = resultShape (.madd d b a) fl := by
  obtain ⟨hrows, hcols⟩ := shapeOk_madd_iff.1 h
  rw [resultShape, resultShape, hrows, hcols]

theorem boundsOk_madd_comm {fl : Inflight} {d a b : DescIdx} (h : shapeOk (.madd d a b) fl = true) (n : Nat) :
    boundsOk (.madd d a b) fl n = boundsOk (.madd d b a) fl n := by
  rw [Bool.eq_iff_iff, boundsOk_pair_iff (resultShape_madd_comm h) rfl, boundsOk_pair_iff rfl rfl, and_left_comm]

theorem checks_madd_comm (fl : Inflight) (d a b : DescIdx) (n : Nat) :
    checks (.madd d a b) fl n = checks (.madd d b a) fl n := by
  have hshape := shapeOk_madd_comm fl d a b
  cases h : shapeOk (.madd d a b) fl with
  | false => simp only [checks, ← hshape, h]; rfl
  | true => simp only [checks, ← hshape, boundsOk_madd_comm h]; rfl

theorem maddEntry_comm (A B : Desc) (m : Memory) (q i j : Nat) : maddEntry A B m q i j = maddEntry B A m q i j := by
  unfold maddEntry
  cases A.elem m i j <;> cases B.elem m i j
  case some.some x y => simp only [add_comm]
  all_goals rfl

theorem maddResult_comm {fl : Inflight} {d a b : DescIdx} (h : shapeOk (.madd d a b) fl = true) (m : Memory) :
    maddResult fl m d a b = maddResult fl m d b a := by
  obtain ⟨hrows, hcols⟩ := shapeOk_madd_iff.1 h
  have hentry : maddEntry (fl.snap a) (fl.snap b) m fl.q.toNat = maddEntry (fl.snap b) (fl.snap a) m fl.q.toNat := by
    funext i j; exact maddEntry_comm ..
  rw [maddResult, maddResult, hrows, hcols, hentry]

theorem exec_madd_comm (s : State) (d a b : DescIdx) : exec (.madd d a b) s = exec (.madd d b a) s := by
  cases hf : s.inflight with
  | none => exact (runChecked_idle hf).trans (runChecked_idle hf).symm
  | some fl =>
    have hcodes := checks_madd_comm fl d a b s.memWords
    by_cases hc : checks (.madd d a b) fl s.memWords = .ok
    · have hready (x y : DescIdx) : ¬ NeedsDraw fl (.madd d x y) := not_needsDraw nofun
      obtain ⟨-, -, hok, -⟩ := checks_eq_ok.1 hc
      rw [exec_of_ready hf hc (hready a b), exec_of_ready hf (hcodes ▸ hc) (hready b a)]
      exact congrArg s.succeed (maddResult_comm hok s.mem)
    · rw [exec_of_failed_check hf rfl hc, exec_of_failed_check hf hcodes.symm hc]

/-- The remainder of a sum of two residues takes at most one subtraction. -/
theorem add_mod_of_lt {x y q : Nat} (hx : x < q) (hy : y < q) :
    (x + y) % q = if x + y < q then x + y else x + y - q := by
  split
  · next h => exact Nat.mod_eq_of_lt h
  · next h => rw [Nat.mod_eq_sub_mod (Nat.le_of_not_lt h), Nat.mod_eq_of_lt (by omega)]

/-- A remainder of a 16-bit modulus is stored whole. -/
theorem toElem_mod_toNat (n : Nat) {q : BitVec 16} (hq : 0 < q.toNat) : (toElem (n % q.toNat)).toNat = n % q.toNat :=
  toElem_toNat (Nat.mod_lt n hq) q.isLt.le

/-- Settles O37: checks and entries are symmetric in the operands, and an entry is the remainder of their sum. -/
theorem maddCommutes : Obligations.MaddCommutes := by
  refine ⟨exec_madd_comm, fun A B m q i j x y hq hx hy => ?entry⟩
  case entry =>
    have hvalue := toElem_mod_toNat (x.toNat + y.toNat) (q := q) (by omega)
    refine ⟨_, maddEntry_eq hx hy, ?_, fun hxq hyq => ?_⟩
    · rw [hvalue]; exact Nat.mod_lt _ (by omega)
    · rw [hvalue, add_mod_of_lt hxq hyq]

end Sys2Proof.Proofs

namespace Sys2Proof.Proofs
open Sys2Proof Sys2Proof.Machine

/-! ### What a successful command leaves in its destination region -/

/-- Entry (i, j) of the result of a command with a destination, by its own rule (spec/40_command_protocol.md R112);
none if the rule reads an unwritten element or lacks a draw. -/
def resultEntry (fl : Inflight) (m : Memory) : Instr → Nat → Nat → Option Elem
  | .nop => fun _ _ => none
  | .mmul _ a b => mmulEntry (fl.snap a) (fl.snap b) m fl.q.toNat
  | .madd _ a b => maddEntry (fl.snap a) (fl.snap b) m fl.q.toNat
  | .mtrn _ a => mtrnEntry (fl.snap a) m
  | .gsamp _ _ => fun i _ => fl.draws[i]?.map (gaussElem fl.q.toNat fl.sigma)
  | .decb _ v w => decbEntry (fl.snap v) (fl.snap w) m fl.q.toNat

/-- The effects of a command that takes no draws are those of the matrix of its entries. -/
theorem ruleEffects_eq_matrixEffects {i : Instr} {fl : Inflight} {m : Memory} {d : DescIdx} {r c : Nat}
    (hshape : resultShape i fl = some (d, r, c)) (hi : ∀ d size, i ≠ .gsamp d size) :
    ruleEffects fl m i = matrixEffects fl d r c (resultEntry fl m i) := by
  cases i with
  | nop => cases hshape
  | gsamp d size => exact absurd rfl (hi d size)
  | _ => cases hshape; rfl

/-- The values of a matrix of entries that may lack one. -/
def entryValue (entry : Nat → Nat → Option Elem) (i j : Nat) : Elem := (entry i j).getD 0#16

/-- The t-th element that GSAMP writes holds the element of the t-th draw. -/
theorem read_gaussWrites {q : Nat} {S : BitVec 16} {zs : List Word} {t : Nat} {z : Word} (m : Memory) (base : Nat)
    (h : zs[t]? = some z) : (m.writeAll (gaussWrites q S base zs)).read (base + t) = some (gaussElem q S z) := by
  induction zs generalizing m base t with
  | nil => simp at h
  | cons z' zs ih =>
    rw [gaussWrites, Memory.writeAll_cons]
    cases t with
    | zero =>
      obtain rfl : z' = z := by simpa using h
      rw [Memory.read_writeAll_other _ _ _ fun e he => by have := gaussWrites_index he; omega]
      exact Memory.read_write_self ..
    | succ t =>
      rw [show base + (t + 1) = base + 1 + t by omega]
      exact ih _ _ (by simpa using h)

/-- The effects of a matrix command complete it with the values of its entries, all of which have one. -/
theorem completedWith_of_matrixEffects (s : State) {fl : Inflight} {d : DescIdx} {r c : Nat}
    {entry : Nat → Nat → Option Elem} {fx : Effects} (h : matrixEffects fl d r c entry = some fx) :
    CompletedWith s (s.complete .ok fx) d (fl.snap d).base.toNat r c (entryValue entry) ∧
      ∀ i j, i < r → j < c → entry i j = some (entryValue entry i j) := by
  have hentry : ∀ i j, i < r → j < c → entry i j = some (entryValue entry i j) := fun i j hi hj => by
    cases he : entry i j with
    | none => rw [matrixEffects_none hi hj he] at h; cases h
    | some v => rw [entryValue, he, Option.getD_some]
  rw [matrixEffects_some hentry] at h
  cases h
  exact ⟨complete_matrix s fl d r c _, hentry⟩

/-- A GSAMP that holds its draws completes with their elements. -/
theorem completedWith_gsampResult (s : State) (fl : Inflight) (d : DescIdx) {size : Nat} {val : Nat → Nat → Elem}
    (h : ∀ i, i < size → fl.draws[i]?.map (gaussElem fl.q.toNat fl.sigma) = some (val i 0)) :
    CompletedWith s (s.complete .ok (gsampResult fl d size)) d (fl.snap d).base.toNat size 1 val where
  frame := complete_frame ..
  busy := rfl
  done := rfl
  err := rfl
  idle := rfl
  result := fun i j hi hj => by
    obtain rfl : j = 0 := by omega
    obtain ⟨z, hz, hval⟩ := Option.map_eq_some_iff.1 (h i hi)
    rw [State.complete_mem, if_pos rfl, ← hval, Nat.mul_one, Nat.add_zero]
    exact read_gaussWrites _ _ (by rw [List.getElem?_take_of_lt hi, hz])
  outside := fun _ hx => complete_outside s (gsampResult_within fl d size) hx
  shape := writeShape_self ..
  others := fun _ hk => writeShape_other _ _ _ hk

section
variable {i : Instr} {s t : State} {fl : Inflight} (hf : s.inflight = some fl) (h : exec i s = .next t)
include hf h

/-- A command that ends with ERR 0 has passed its checks. -/
theorem checks_of_err_zero (herr : t.status.err = 0#4) : checks i fl s.memWords = .ok := by
  by_contra hc
  rw [exec_of_failed_check hf rfl hc] at h
  cases h
  exact hc (errCode_bits_eq_zero.1 herr)

/-- A command whose checks pass and that is no longer in flight has run its own rule. -/
theorem ruleEffects_of_completed (hc : checks i fl s.memWords = .ok) (hidle : t.inflight = none) :
    ¬ NeedsDraw fl i ∧ ∃ fx, ruleEffects fl s.mem i = some fx ∧ t = s.complete .ok fx := by
  by_cases hn : NeedsDraw fl i
  · obtain ⟨u, fl', hu, hflight⟩ := takeDraw_inflight hf
    rw [exec_of_needsDraw hf hc hn, hu] at h
    cases h
    simp [hflight] at hidle
  · rw [exec_of_ready hf hc hn] at h
    exact ⟨hn, succeed_next h⟩

/-- A successful command leaves the entries of its result in its destination region. -/
theorem completedWith_of_exec {d : DescIdx} {r c : Nat} (hc : checks i fl s.memWords = .ok)
    (hshape : resultShape i fl = some (d, r, c)) (hidle : t.inflight = none) :
    CompletedWith s t d (fl.snap d).base.toNat r c (entryValue (resultEntry fl s.mem i)) ∧
      ∀ k l, k < r → l < c → resultEntry fl s.mem i k l = some (entryValue (resultEntry fl s.mem i) k l) := by
  obtain ⟨hn, fx, hfx, rfl⟩ := ruleEffects_of_completed hf h hc hidle
  cases i with
  | gsamp d size =>
    cases hshape
    cases hfx
    have hentry (k l : Nat) (hk : k < r) :
        resultEntry fl s.mem (.gsamp d r) k l = some (entryValue (resultEntry fl s.mem (.gsamp d r)) k l) := by
      have hlen : k < fl.draws.length := by
        by_contra hlt
        exact hn ⟨d, r, rfl, by omega⟩
      simp [entryValue, resultEntry, hlen]
    exact ⟨completedWith_gsampResult s fl d fun k hk => hentry k 0 hk, fun k l hk _ => hentry k l hk⟩
  | _ =>
    rw [ruleEffects_eq_matrixEffects hshape nofun] at hfx
    exact completedWith_of_matrixEffects s hfx

end

/-! ### The range of the results -/

section
variable {q : BitVec 16} (hq : 2 ≤ q.toNat)
include hq

theorem toElem_floormod_lt (x : Int) : (toElem (floormod x q.toNat)).toNat < q.toNat := by
  rw [toElem_floormod_toNat x q (by omega)]
  exact floormod_lt x (by omega)

theorem mmulEntry_lt {A B : Desc} {m : Memory} {i j : Nat} {v : Elem} (h : mmulEntry A B m q.toNat i j = some v) :
    v.toNat < q.toNat := by
  obtain ⟨acc, -, rfl⟩ := Option.map_eq_some_iff.1 h
  exact toElem_floormod_lt hq acc

theorem maddEntry_lt {A B : Desc} {m : Memory} {i j : Nat} {v : Elem} (h : maddEntry A B m q.toNat i j = some v) :
    v.toNat < q.toNat := by
  unfold maddEntry at h
  split at h
  · cases h; exact toElem_floormod_lt hq _
  · cases h

end

theorem decbEntry_bit {V W : Desc} {m : Memory} {q i j : Nat} {v : Elem} (h : decbEntry V W m q i j = some v) :
    v = 0#16 ∨ v = 1#16 := by
  unfold decbEntry at h
  split at h
  · next x y _ _ =>
    cases h
    obtain hbit | hbit : decodeBit (decodeRaw x y q) q = 0 ∨ decodeBit (decodeRaw x y q) q = 1 :=
      Nat.le_one_iff_eq_zero_or_eq_one.1 (decodeBit_le_one _ _)
    · exact .inl (by rw [hbit]; rfl)
    · exact .inr (by rw [hbit]; rfl)
  · cases h

/-- What every element of a result other than that of MTRN meets. -/
theorem resultEntry_reduced {i : Instr} {fl : Inflight} {m : Memory} {k l : Nat} {v : Elem}
    (hq : usesModulus i = true → 2 ≤ fl.q.toNat) (hi : ∀ d a, i ≠ .mtrn d a) (h : resultEntry fl m i k l = some v) :
    v.toNat < fl.q.toNat ∧ ((∃ d v w, i = .decb d v w) → v = 0#16 ∨ v = 1#16) := by
  cases i with
  | nop => cases h
  | mtrn d a => exact absurd rfl (hi d a)
  | mmul d a b => exact ⟨mmulEntry_lt (hq rfl) h, nofun⟩
  | madd d a b => exact ⟨maddEntry_lt (hq rfl) h, nofun⟩
  | gsamp d size =>
    obtain ⟨z, -, rfl⟩ := Option.map_eq_some_iff.1 h
    exact ⟨toElem_floormod_lt (hq rfl) _, nofun⟩
  | decb d v w =>
    have hbit := decbEntry_bit h
    have hlt : 2 ≤ fl.q.toNat := hq rfl
    exact ⟨by rcases hbit with rfl | rfl <;> simp <;> omega, fun _ => hbit⟩

/-- Every index of the destination region is the index of an entry. -/
theorem exists_rowMajor {base r c x : Nat} (hlo : base ≤ x) (hhi : x < base + r * c) :
    ∃ i j, i < r ∧ j < c ∧ x = base + i * c + j := by
  have hc : 0 < c := Nat.pos_of_ne_zero (by rintro rfl; omega)
  refine ⟨(x - base) / c, (x - base) % c, Nat.div_lt_of_lt_mul ?_, Nat.mod_lt _ hc, ?_⟩
  · rw [Nat.mul_comm]; omega
  · have := Nat.div_add_mod' (x - base) c
    omega

/-- Settles O38: the destination region holds the entries of the result, each of which its rule has reduced. -/
theorem resultsAreReduced : Obligations.ResultsAreReduced := by
  intro i s t fl d r c hf hc hshape h hidle hi x hlo hhi
  obtain ⟨hdone, hentry⟩ := completedWith_of_exec hf h hc hshape hidle
  obtain ⟨hq, -, -, -⟩ := checks_eq_ok.1 hc
  obtain ⟨k, l, hk, hl, rfl⟩ := exists_rowMajor hlo hhi
  exact ⟨_, hdone.result k l hk hl, resultEntry_reduced hq hi (hentry k l hk hl)⟩

end Sys2Proof.Proofs

namespace Sys2Proof.Proofs
open Sys2Proof Sys2Proof.Machine

/-! ### Reduced operands (spec/41_matrix_engine.md R125) -/

/-- The element x replaced by floormod(x, q). -/
def reduceElem (q : Nat) (x : Elem) : Elem := BitVec.ofNat 16 (x.toNat % q)

theorem reduceElem_toNat (q : Nat) (x : Elem) : (reduceElem q x).toNat = x.toNat % q := by
  rw [reduceElem, BitVec.toNat_ofNat]
  exact Nat.mod_eq_of_lt (Nat.lt_of_le_of_lt (Nat.mod_le _ _) x.isLt)

section
variable {A B : Desc} {m m' : Memory} {q i j : Nat}

/-- The accumulators of reduced and of unreduced operands are congruent mod q. -/
theorem mmulAcc_reduced {n : Nat} (hA : ∀ k, k < n → A.elem m' i k = (A.elem m i k).map (reduceElem q))
    (hB : ∀ k, k < n → B.elem m' k j = (B.elem m k j).map (reduceElem q)) :
    (mmulAcc A B m' i j n).map (· % q) = (mmulAcc A B m i j n).map (· % q) := by
  induction n with
  | zero => rfl
  | succ n ih =>
    have ih := ih (fun k hk => hA k (by omega)) fun k hk => hB k (by omega)
    simp only [mmulAcc, hA n (by omega), hB n (by omega)]
    cases hacc : mmulAcc A B m i j n with
    | none =>
      have hacc' : mmulAcc A B m' i j n = none := Option.map_eq_none_iff.1 (by rw [ih, hacc]; rfl)
      rw [hacc']
    | some acc =>
      obtain ⟨acc', hacc', hmod⟩ := Option.map_eq_some_iff.1 (show _ = some (acc % q) by rw [ih, hacc]; rfl)
      rw [hacc']
      cases A.elem m i n with
      | none => rfl
      | some x =>
        cases B.elem m n j with
        | none => rfl
        | some y =>
          simp only [Option.map_some, reduceElem_toNat]
          exact congrArg some (Nat.ModEq.add hmod (.mul (Nat.mod_modEq _ _) (Nat.mod_modEq _ _)))

/-- An entry of MMUL depends on the accumulator mod q only. -/
theorem mmulEntry_eq_map_mod (A B : Desc) (m : Memory) (q i j : Nat) :
    mmulEntry A B m q i j = ((mmulAcc A B m i j A.cols.toNat).map (· % q)).map toElem := by
  simp only [mmulEntry, floormod_natCast, Option.map_map]
  rfl

theorem maddEntry_reduced (hA : A.elem m' i j = (A.elem m i j).map (reduceElem q))
    (hB : B.elem m' i j = (B.elem m i j).map (reduceElem q)) : maddEntry A B m' q i j = maddEntry A B m q i j := by
  cases hx : A.elem m i j with
  | none => rw [maddEntry_eq_none (.inl (by rw [hA, hx]; rfl)), maddEntry_eq_none (.inl hx)]
  | some x =>
    cases hy : B.elem m i j with
    | none => rw [maddEntry_eq_none (.inr (by rw [hB, hy]; rfl)), maddEntry_eq_none (.inr hy)]
    | some y =>
      rw [hx] at hA
      rw [hy] at hB
      rw [maddEntry_eq hA hB, maddEntry_eq hx hy, reduceElem_toNat, reduceElem_toNat, ← Nat.add_mod]

end

/-- Settles O39: sums and products of reduced operands are congruent to those of the operands. -/
theorem unreducedOperandsChangeNothing : Obligations.UnreducedOperandsChangeNothing := by
  intro A B m m' q _ hA hB
  refine ⟨fun hdim i j hi hj => ?mmul, fun hrows hcols i j hi hj => ?madd⟩
  case mmul =>
    rw [mmulEntry_eq_map_mod, mmulEntry_eq_map_mod,
      mmulAcc_reduced (fun k hk => hA i k hi hk) fun k hk => hB k j (hdim ▸ hk) hj]
  case madd => exact maddEntry_reduced (hA i j hi hj) (hB i j (hrows ▸ hi) (hcols ▸ hj))

/-! ### Transpose of a transpose (spec/41_matrix_engine.md R123) -/

/-- MTRN, issued and completed with ERR 0, leaves the transpose of D[a] in D[d], also when d = a or the regions
overlap. -/
theorem mtrn_transposes {s t : State} {a d : DescIdx} {x : Nat → Nat → Elem} {w : Word}
    (hx : Holds s.descs[a] s.mem s.descs[a].rows.toNat s.descs[a].cols.toNat x)
    (h : exec (.mtrn d a) (s.issue w) = .next t) (herr : t.status.err = 0#4) :
    t.descs[d] = { base := s.descs[d].base, rows := s.descs[a].cols, cols := s.descs[a].rows } ∧
      Holds t.descs[d] t.mem s.descs[a].cols.toNat s.descs[a].rows.toNat fun i j => x j i := by
  have hf := State.issue_inflight s w
  have hc := checks_of_err_zero hf h herr
  rw [exec_of_ready hf hc (not_needsDraw nofun)] at h
  obtain ⟨fx, hfx, rfl⟩ := succeed_next h
  obtain ⟨hdone, hentry⟩ := completedWith_of_matrixEffects (s.issue w) hfx
  have hdesc := hdone.shape
  rw [BitVec.ofNat_toNat, BitVec.ofNat_toNat, BitVec.setWidth_eq, BitVec.setWidth_eq] at hdesc
  refine ⟨hdesc, fun i j hi hj => ?_⟩
  have hvalue : mtrnEntry s.descs[a] s.mem i j = some (x j i) := elem_of_holds hx hj hi
  rw [hdesc, ← hvalue]
  exact (hdone.result i j hi hj).trans (hentry i j hi hj).symm

/-- Settles O40: the two transposes exchange the roles of rows and columns twice. -/
theorem transposeIsInvolution : Obligations.TransposeIsInvolution := by
  intro s t u a d e x hx ht hterr hu huerr
  obtain ⟨hD, hDx⟩ := mtrn_transposes hx ht hterr
  have hDx' : Holds t.descs[d] t.mem t.descs[d].rows.toNat t.descs[d].cols.toNat fun i j => x j i := by
    simpa only [hD] using hDx
  obtain ⟨hE, hEx⟩ := mtrn_transposes hDx' hu huerr
  refine ⟨?base, by rw [hE, hD], by rw [hE, hD], ?values⟩
  case base => exact (exec_descs_base hu e).trans (exec_descs_base ht e)
  case values => simpa only [hD] using hEx

/-! ### Multiply is associative (spec/41_matrix_engine.md R124) -/

/-- Factors may be reduced inside a sum that is reduced. -/
theorem sum_mul_mod_left (s : Finset Nat) (f g : Nat → Nat) (q : Nat) :
    (∑ k ∈ s, f k % q * g k) % q = (∑ k ∈ s, f k * g k) % q := by
  rw [Finset.sum_nat_mod, Finset.sum_nat_mod s q fun k => f k * g k]
  simp only [Nat.mod_mul_mod]

theorem sum_mul_mod_right (s : Finset Nat) (f g : Nat → Nat) (q : Nat) :
    (∑ k ∈ s, f k * (g k % q)) % q = (∑ k ∈ s, f k * g k) % q := by
  simpa only [mul_comm] using sum_mul_mod_left s g f q

/-- The exact triple product, summed in either order. -/
theorem sum_triple_product (K L : Finset Nat) (x z : Nat → Nat) (y : Nat → Nat → Nat) :
    ∑ l ∈ L, (∑ k ∈ K, x k * y k l) * z l = ∑ k ∈ K, x k * ∑ l ∈ L, y k l * z l := by
  simp only [Finset.sum_mul, Finset.mul_sum, mul_assoc]
  exact Finset.sum_comm

/-- Settles O41: both entries are the triple product mod q, because an inner product reduced early changes nothing. -/
theorem multiplyIsAssociative : Obligations.MultiplyIsAssociative := by
  intro A B C AB BC m q x y z hq hAB hBC hcols hrows _ _ hA hB hC hABentry hBCentry i j hi hj
  have hleft (l : Nat) (hl : l < AB.cols.toNat) : AB.elem m i l =
      some (toElem ((∑ k ∈ Finset.range A.cols.toNat, (x i k).toNat * (y k l).toNat) % q.toNat)) := by
    rw [hcols] at hl
    rw [hABentry i l hi hl]
    exact mmulEntry_eq (fun k hk => elem_of_holds hA hi hk) fun k hk => elem_of_holds hB (hAB ▸ hk) hl
  have hright (k : Nat) (hk : k < A.cols.toNat) : BC.elem m k j =
      some (toElem ((∑ l ∈ Finset.range B.cols.toNat, (y k l).toNat * (z l j).toNat) % q.toNat)) := by
    rw [hAB] at hk
    rw [hBCentry k j hk hj]
    exact mmulEntry_eq (fun l hl => elem_of_holds hB hk hl) fun l hl => elem_of_holds hC (hBC ▸ hl) hj
  refine ⟨_, mmulEntry_eq hleft fun l hl => elem_of_holds hC (by rwa [← hBC, ← hcols]) hj, ?_⟩
  rw [mmulEntry_eq (fun k hk => elem_of_holds hA hi hk) hright]
  simp only [toElem_mod_toNat _ (show 0 < q.toNat by omega), sum_mul_mod_left, sum_mul_mod_right, sum_triple_product,
    hcols]

end Sys2Proof.Proofs

namespace Sys2Proof.Proofs
open Sys2Proof Sys2Proof.Machine

/-! ### The old shape of a destination (spec/41_matrix_engine.md R128) -/

/-- Two snapshots that agree on everything that the command i with destination d uses: not on the ROWS and COLS of a
D[d] that is no source. -/
structure SameButDestShape (i : Instr) (d : DescIdx) (fl fl' : Inflight) : Prop where
  q : fl'.q = fl.q
  sigma : fl'.sigma = fl.sigma
  draws : fl'.draws = fl.draws
  snap : ∀ k ∈ sources i, fl'.snap k = fl.snap k
  base : (fl'.snap d).base = (fl.snap d).base

namespace SameButDestShape

section
variable {i : Instr} {d : DescIdx} {fl fl' : Inflight} (h : SameButDestShape i d fl fl')
include h

theorem snap_first {a : DescIdx} {ks : List DescIdx} (hs : sources i = a :: ks) : fl'.snap a = fl.snap a :=
  h.snap a (by simp [hs])

theorem snap_second {a b : DescIdx} {ks : List DescIdx} (hs : sources i = a :: b :: ks) : fl'.snap b = fl.snap b :=
  h.snap b (by simp [hs])

theorem shapeOk_eq : shapeOk i fl' = shapeOk i fl := by
  cases i with
  | nop => rfl
  | mtrn _ a => rfl
  | gsamp _ _ => rfl
  | mmul _ a b => simp only [shapeOk, h.snap_first rfl, h.snap_second rfl]
  | madd _ a b => simp only [shapeOk, h.snap_first rfl, h.snap_second rfl]
  | decb _ v w => simp only [shapeOk, h.snap_first rfl, h.snap_second rfl]

theorem resultShape_eq : resultShape i fl' = resultShape i fl := by
  cases i with
  | nop => rfl
  | gsamp _ _ => rfl
  | mtrn _ a => simp only [resultShape, h.snap_first rfl]
  | mmul _ a b => simp only [resultShape, h.snap_first rfl, h.snap_second rfl]
  | madd _ a b => simp only [resultShape, h.snap_first rfl]
  | decb _ v w => simp only [resultShape, h.snap_first rfl]

theorem resultEntry_eq (m : Memory) : resultEntry fl' m i = resultEntry fl m i := by
  cases i with
  | nop => rfl
  | gsamp _ _ => simp only [resultEntry, h.draws, h.q, h.sigma]
  | mtrn _ a => simp only [resultEntry, h.snap_first rfl]
  | mmul _ a b => simp only [resultEntry, h.snap_first rfl, h.snap_second rfl, h.q]
  | madd _ a b => simp only [resultEntry, h.snap_first rfl, h.snap_second rfl, h.q]
  | decb _ v w => simp only [resultEntry, h.snap_first rfl, h.snap_second rfl, h.q]

theorem matrixEffects_eq (r c : Nat) (entry : Nat → Nat → Option Elem) :
    matrixEffects fl' d r c entry = matrixEffects fl d r c entry := by
  simp only [matrixEffects, h.base]

variable {r c : Nat} (hshape : resultShape i fl = some (d, r, c))
include hshape

theorem checks_ok {n : Nat} (hc : checks i fl n = .ok) : checks i fl' n = .ok := by
  obtain ⟨hq, hsigma, hok, hbounds⟩ := checks_eq_ok.1 hc
  obtain ⟨hsources, hdest⟩ := (boundsOk_iff hshape).1 hbounds
  refine checks_eq_ok.2 ⟨h.q ▸ hq, h.sigma ▸ hsigma, h.shapeOk_eq ▸ hok,
    (boundsOk_iff (h.resultShape_eq.trans hshape)).2 ⟨fun k hk => ?_, h.base ▸ hdest⟩⟩
  rw [h.snap k hk]
  exact hsources k hk

theorem ruleEffects_eq (hi : ∀ d size, i ≠ .gsamp d size) (m : Memory) : ruleEffects fl' m i = ruleEffects fl m i := by
  rw [ruleEffects_eq_matrixEffects hshape hi, ruleEffects_eq_matrixEffects (h.resultShape_eq.trans hshape) hi,
    h.resultEntry_eq, h.matrixEffects_eq]

end

/-- A snapshot in which the destination, which is no source, has another shape. -/
theorem of_writeShape {i : Instr} {d : DescIdx} (hd : d ∉ sources i) (fl : Inflight) (rows cols : BitVec 16) :
    SameButDestShape i d fl { fl with dsnap := writeShape fl.dsnap (some (d, rows, cols)) } where
  q := rfl
  sigma := rfl
  draws := rfl
  snap := fun _ hk => writeShape_other fl.dsnap rows cols fun hkd => hd (hkd ▸ hk)
  base := writeShape_base fl.dsnap _ d

end SameButDestShape

/-- Of two shape writes to one descriptor the last one counts. -/
theorem writeShape_writeShape (ds : Vector Desc 16) (d : DescIdx) (r c r' c' : BitVec 16) :
    writeShape (writeShape ds (some (d, r', c'))) (some (d, r, c)) = writeShape ds (some (d, r, c)) := by
  simp [writeShape]

/-- A completion that writes the shape of D[d] hides the shape that D[d] had, and the command that was in flight. -/
theorem complete_writeShape (s : State) {fx : Effects} {d : DescIdx} {r c : BitVec 16} (hfx : fx.shape = some (d, r, c))
    (rows cols : BitVec 16) (fl? : Option Inflight) :
    State.complete { s with descs := writeShape s.descs (some (d, rows, cols)), inflight := fl? } .ok fx =
      s.complete .ok fx := by
  simp only [State.complete, hfx, writeShape_writeShape, if_true]

/-- Settles O42: the checks and the rule read no old shape of the destination, and the completion overwrites it. -/
theorem destinationShapeIsIgnored : Obligations.DestinationShapeIsIgnored := by
  intro i s t fl d r c rows cols hf hshape hi hd h herr
  have hsame := SameButDestShape.of_writeShape hd fl rows cols
  have hc := checks_of_err_zero hf h herr
  rw [exec_of_ready hf hc (not_needsDraw hi)] at h
  obtain ⟨fx, hfx, rfl⟩ := succeed_next h
  have hfx' := (hsame.ruleEffects_eq hshape hi s.mem).trans hfx
  have hfxShape : fx.shape = some (d, BitVec.ofNat 16 r, BitVec.ofNat 16 c) := by
    rw [ruleEffects_shape hfx, writtenShape, hshape]
    rfl
  calc exec i { s with
        descs := writeShape s.descs (some (d, rows, cols))
        inflight := some { fl with dsnap := writeShape fl.dsnap (some (d, rows, cols)) } }
    _ = State.succeed _ _ := exec_of_ready rfl (hsame.checks_ok hshape hc) (not_needsDraw hi)
    _ = State.succeed _ (some fx) := congrArg _ hfx'
    _ = .next (s.complete .ok fx) := congrArg Host.Outcome.next (complete_writeShape s hfxShape rows cols _)

end Sys2Proof.Proofs

namespace Sys2Proof.Proofs
open Sys2Proof Sys2Proof.Machine

/-! ### Rounding (spec/42_gaussian_sampler.md R133) -/

/-- On natural numbers the rounding is ⌊n / 2^24 + 1/2⌋. -/
theorem roundHalfAway24_natCast (n : Nat) : roundHalfAway24 n = ((n + 2 ^ 23) / 2 ^ 24 : Nat) := by
  rcases Nat.eq_zero_or_pos n with rfl | hn
  · rfl
  · rw [roundHalfAway24, Int.sign_eq_one_of_pos (by omega), Int.natAbs_natCast, one_mul]

theorem roundHalfAway24_neg (P : Int) : roundHalfAway24 (-P) = -roundHalfAway24 P := by
  rw [roundHalfAway24, roundHalfAway24, Int.sign_neg, Int.natAbs_neg, neg_mul]

theorem natAbs_roundHalfAway24 (P : Int) : (roundHalfAway24 P).natAbs = (P.natAbs + 2 ^ 23) / 2 ^ 24 := by
  obtain ⟨n, rfl | rfl⟩ := P.eq_nat_or_neg
  · rw [roundHalfAway24_natCast, Int.natAbs_natCast, Int.natAbs_natCast]
  · rw [roundHalfAway24_neg, roundHalfAway24_natCast, Int.natAbs_neg, Int.natAbs_neg, Int.natAbs_natCast,
      Int.natAbs_natCast]

/-- The rounded integer is nearest to P / 2^24, and of two nearest ones it is the one with the larger magnitude. -/
theorem roundHalfAway24_nearest (P : Int) :
    (P - roundHalfAway24 P * 2 ^ 24).natAbs ≤ 2 ^ 23 ∧
      ((P - roundHalfAway24 P * 2 ^ 24).natAbs = 2 ^ 23 → P.natAbs < (roundHalfAway24 P * 2 ^ 24).natAbs) := by
  obtain ⟨n, rfl | rfl⟩ := P.eq_nat_or_neg
  · rw [roundHalfAway24_natCast]; omega
  · rw [roundHalfAway24_neg, roundHalfAway24_natCast]; omega

/-! ### The range of P = S·Z (R133) -/

/-- A draw is a signed 32-bit number (R131). -/
theorem natAbs_toInt_le (z : Word) : z.toInt.natAbs ≤ 2 ^ 31 := by
  have hle := z.toInt_le
  have hge := z.le_toInt
  omega

theorem natAbs_scaled_le (S : BitVec 16) (z : Word) : ((S.toNat : Int) * z.toInt).natAbs ≤ S.toNat * 2 ^ 31 := by
  rw [Int.natAbs_mul, Int.natAbs_natCast]
  exact Nat.mul_le_mul_left _ (natAbs_toInt_le z)

/-- Settles O46: the width of the product bounds P, and the rounding is settled on |P|, then carried over by its
oddness. -/
theorem sampleRoundsHalfAway : Obligations.SampleRoundsHalfAway := by
  refine ⟨fun S z => ⟨?width, rfl⟩, fun P => ?rounding⟩
  case width =>
    have hP := natAbs_scaled_le S z
    have hS := S.isLt
    omega
  case rounding =>
    obtain ⟨hnear, htie⟩ := roundHalfAway24_nearest P
    exact ⟨hnear, htie, rfl, roundHalfAway24_neg P⟩

/-! ### The range of the samples (R135, R137) -/

theorem natAbs_gaussSample_le (S : BitVec 16) (z : Word) : (gaussSample S z).natAbs ≤ 128 * S.toNat := by
  have hP := natAbs_scaled_le S z
  rw [gaussSample, natAbs_roundHalfAway24]
  omega

/-- The sample of the draw m is ⌊S·m / 2^24 + 1/2⌋. -/
theorem gaussSample_of_toInt_eq {S : BitVec 16} {z : Word} {m : Nat} (hz : z.toInt = m) :
    gaussSample S z = ((S.toNat * m + 2 ^ 23) / 2 ^ 24 : Nat) := by
  rw [gaussSample, hz, ← Nat.cast_mul, roundHalfAway24_natCast]

/-- The sample of the draw −m is the negated sample of m. -/
theorem gaussSample_of_toInt_eq_neg {S : BitVec 16} {z : Word} {m : Nat} (hz : z.toInt = -m) :
    gaussSample S z = -((S.toNat * m + 2 ^ 23) / 2 ^ 24 : Nat) := by
  rw [gaussSample, hz, mul_neg, roundHalfAway24_neg, ← Nat.cast_mul, roundHalfAway24_natCast]

theorem gaussSample_least (S : BitVec 16) : gaussSample S 0x80000000#32 = -(128 * S.toNat : Int) := by
  have hz : (0x80000000#32 : Word).toInt = -(2 ^ 31 : Nat) := by decide
  rw [gaussSample_of_toInt_eq_neg hz]
  omega

theorem gaussSample_greatest (S : BitVec 16) : gaussSample S 0x7FFFFFFF#32 = (128 * S.toNat : Int) := by
  have hz : (0x7FFFFFFF#32 : Word).toInt = (2 ^ 31 - 1 : Nat) := by decide
  have hS := S.isLt
  rw [gaussSample_of_toInt_eq hz]
  omega

/-- The draw ⌊n·2^24 / S⌋ has the sample n: S is too small against 2^23 for the floor to move P out of n's interval. -/
theorem round_scaled_div {S n : Nat} (hS : 0 < S) (hS16 : S < 2 ^ 16) :
    (S * (n * 2 ^ 24 / S) + 2 ^ 23) / 2 ^ 24 = n := by
  have hdiv := Nat.div_add_mod (n * 2 ^ 24) S
  have hmod := Nat.mod_lt (n * 2 ^ 24) hS
  omega

/-- Every magnitude below the extreme is that of the sample of some m below 2^31, so that m and −m are both draws. -/
theorem exists_draw_of_lt {S : BitVec 16} {n : Nat} (hn : n < 128 * S.toNat) :
    ∃ m : Nat, m < 2 ^ 31 ∧ (S.toNat * m + 2 ^ 23) / 2 ^ 24 = n := by
  have hS : 0 < S.toNat := by omega
  have hlt : n * 2 ^ 24 / S.toNat < 2 ^ 31 := by
    rw [Nat.div_lt_iff_lt_mul hS]
    omega
  exact ⟨n * 2 ^ 24 / S.toNat, hlt, round_scaled_div hS S.isLt⟩

/-- The draws reach every integer of [−128·S, 128·S] (R135). -/
theorem exists_gaussSample_eq {S : BitVec 16} {k : Int} (hk : k.natAbs ≤ 128 * S.toNat) :
    ∃ z : Word, gaussSample S z = k := by
  rcases Nat.lt_or_eq_of_le hk with hlt | hext
  · obtain ⟨m, hm, hround⟩ := exists_draw_of_lt hlt
    rcases k.natAbs_eq with hpos | hneg
    · have hz : (BitVec.ofInt 32 m).toInt = m := BitVec.toInt_ofInt_eq_self (by omega) (by omega) (by omega)
      exact ⟨_, by rw [gaussSample_of_toInt_eq hz, hround, ← hpos]⟩
    · have hz : (BitVec.ofInt 32 (-m)).toInt = -m := BitVec.toInt_ofInt_eq_self (by omega) (by omega) (by omega)
      exact ⟨_, by rw [gaussSample_of_toInt_eq_neg hz, hround, ← hneg]⟩
  · rcases k.natAbs_eq with hpos | hneg
    · exact ⟨_, (gaussSample_greatest S).trans (by omega)⟩
    · exact ⟨_, (gaussSample_least S).trans (by omega)⟩

/-- An interval [−b, b] of at least q integers holds one of every residue mod q. -/
theorem exists_floormod_eq {b q r : Nat} (hq : q ≤ 2 * b + 1) (hr : r < q) :
    ∃ k : Int, k.natAbs ≤ b ∧ floormod k q = r := by
  rcases le_or_gt r b with hle | hgt
  · exact ⟨r, by omega, by rw [floormod_natCast, Nat.mod_eq_of_lt hr]⟩
  · exact ⟨r - q, by omega, (eq_floormod_of_dvd_sub hr ⟨-1, by ring⟩).symm⟩

/-- Settles O47: the bound and both ends, a draw for every integer between them, and one of these integers for every
residue. -/
theorem sampleRangeIsExact : Obligations.SampleRangeIsExact := by
  intro S
  refine ⟨fun z => ⟨natAbs_gaussSample_le S z, ?below⟩, gaussSample_least S, gaussSample_greatest S,
    fun k hk => exists_gaussSample_eq hk, fun q _ hq r hr => ?residue⟩
  case below =>
    have hle := natAbs_gaussSample_le S z
    have hS := S.isLt
    omega
  case residue =>
    obtain ⟨k, hk, rfl⟩ := exists_floormod_eq hq hr
    obtain ⟨z, rfl⟩ := exists_gaussSample_eq hk
    exact ⟨z, rfl⟩

end Sys2Proof.Proofs

namespace Sys2Proof.Proofs
open Sys2Proof Sys2Proof.Machine

/-! ### GSAMP: its checks, its draw step and its result -/

/-- The checks of GSAMP (spec/40_command_protocol.md R105, R109 to R111, spec/42_gaussian_sampler.md R132). -/
theorem checks_gsamp_eq_ok {fl : Inflight} {n : Nat} {d : DescIdx} {size : Nat} :
    checks (.gsamp d size) fl n = .ok ↔
      2 ≤ fl.q.toNat ∧ fl.sigma.toNat ≠ 0 ∧ (fl.snap d).base.toNat + size ≤ n := by
  have hsigma : fl.sigma ≠ 0#16 ↔ fl.sigma.toNat ≠ 0 := not_congr BitVec.toNat_inj.symm
  simp [checks_eq_ok, usesModulus, usesSigma, shapeOk, sources, hsigma,
    boundsOk_iff (i := .gsamp d size) (fl := fl) rfl]

/-- The state after the draws `zs` were taken, which leaves `rest` on offer (R131). -/
def afterDraws (s : State) (fl : Inflight) (zs rest : List Word) : State :=
  { s with entropy := rest, inflight := some { fl with draws := fl.draws ++ zs } }

theorem afterDraws_nil {s : State} {fl : Inflight} (hf : s.inflight = some fl) :
    afterDraws s fl [] s.entropy = s := by
  rw [afterDraws, List.append_nil, ← hf]

theorem takeDraw_cons {s : State} {z : Word} {rest : List Word} (fl : Inflight) (he : s.entropy = z :: rest) :
    s.takeDraw fl = .next (afterDraws s fl [z] rest) := by
  simp only [State.takeDraw, he, afterDraws]

theorem takeDraw_nil {s : State} (fl : Inflight) (he : s.entropy = []) : s.takeDraw fl = .next s := by
  simp only [State.takeDraw, he]

theorem afterDraws_afterDraws (s : State) (fl : Inflight) (zs zs' rest rest' : List Word) :
    afterDraws (afterDraws s fl zs rest) { fl with draws := fl.draws ++ zs } zs' rest' =
      afterDraws s fl (zs ++ zs') rest' := by
  simp only [afterDraws, List.append_assoc]

/-- A completion leaves nothing in flight, so of the draws that were taken it keeps only that they are off the port. -/
theorem complete_afterDraws (s : State) (fl : Inflight) (zs rest : List Word) (code : ErrCode) (fx : Effects) :
    (afterDraws s fl zs rest).complete code fx = State.complete { s with entropy := rest } code fx := rfl

/-- With all of its draws GSAMP completes. -/
theorem exec_gsamp_of_drawn {s : State} {fl : Inflight} {d : DescIdx} {size : Nat} (hf : s.inflight = some fl)
    (hc : checks (.gsamp d size) fl s.memWords = .ok) (hn : size ≤ fl.draws.length) :
    exec (.gsamp d size) s = .next (s.complete .ok (gsampResult fl d size)) :=
  (runChecked_ok hf hc).trans (if_neg (Nat.not_lt.2 hn))

/-- Settles O43: the checks pass, no draw is missing, and each element is that of its draw. -/
theorem gsampWritesSamples : Obligations.GsampWritesSamples := by
  intro s fl d size z hf hq hsigma hbounds hlen hz
  have hc := checks_gsamp_eq_ok.2 ⟨hq, hsigma, hbounds⟩
  refine ⟨_, exec_gsamp_of_drawn hf hc hlen.ge, completedWith_gsampResult s fl d fun i hi => ?_⟩
  rw [hz i hi]
  rfl

/-- ent_ready is raised for a GSAMP that lacks a draw (spec/20_memory.md R58, spec/70_reset_and_hazards.md R171). -/
theorem entReady_iff (s : State) :
    s.entReady = true ↔ s.rstN = true ∧ s.status.busy = true ∧
      ∃ fl d size, s.inflight = some fl ∧ decode fl.word = .ok (.gsamp d size) ∧
        checks (.gsamp d size) fl s.memWords = .ok ∧ fl.draws.length < size := by
  unfold State.entReady
  cases s.inflight with
  | none => simp
  | some fl =>
    cases hd : decode fl.word with
    | error e => simp [hd]
    | ok i => cases i <;> simp [hd, and_assoc]

/-- Settles O44: with its checks passed and a draw missing the command's rule is the draw step, and ent_ready names the
same condition. -/
theorem gsampTakesDrawsInOrder : Obligations.GsampTakesDrawsInOrder := by
  refine ⟨fun s fl d size hf hq hsigma hbounds hlt => ?drawStep, fun s => ?entReady⟩
  case drawStep =>
    have hstep := exec_of_needsDraw hf (checks_gsamp_eq_ok.2 ⟨hq, hsigma, hbounds⟩) ⟨d, size, rfl, hlt⟩
    exact ⟨fun z rest he => hstep.trans (takeDraw_cons fl he), fun he => hstep.trans (takeDraw_nil fl he)⟩
  case entReady => simp only [entReady_iff, checks_gsamp_eq_ok, and_assoc]

/-! ### A run that supplies all draws (R184, R187) -/

/-- With the schedule exhausted, the executor runs a GSAMP whose checks pass. -/
structure RunsGsamp (s : State) (fl : Inflight) (d : DescIdx) (size : Nat) : Prop where
  sched : s.sched = []
  rstN : s.rstN = true
  busy : s.status.busy = true
  inflight : s.inflight = some fl
  word : decode fl.word = .ok (.gsamp d size)
  checks_ok : checks (.gsamp d size) fl s.memWords = .ok

theorem run_succ {s t : State} (h : step s = .next t) (n : Nat) :
    Sys2Proof.core.run (n + 1) s = Sys2Proof.core.run n t := by
  have hstep : Sys2Proof.core.step s = .next t := h
  simp only [Host.Core.run, hstep]

namespace RunsGsamp
variable {s : State} {fl : Inflight} {d : DescIdx} {size : Nat} (h : RunsGsamp s fl d size)
include h

theorem step_eq : step s = exec (.gsamp d size) s :=
  (stepRunsCommandInFlight.1 s fl _ h.rstN h.busy h.inflight h.word).1 h.sched

theorem draws_taken (zs rest : List Word) :
    RunsGsamp (afterDraws s fl zs rest) { fl with draws := fl.draws ++ zs } d size :=
  { h with inflight := rfl }

theorem step_draw {z : Word} {rest : List Word} (he : s.entropy = z :: rest) (hlt : fl.draws.length < size) :
    step s = .next (afterDraws s fl [z] rest) := by
  rw [h.step_eq, exec_of_needsDraw h.inflight h.checks_ok ⟨d, size, rfl, hlt⟩, takeDraw_cons fl he]

/-- Offered draws that it still needs are taken one per step, in order. -/
theorem run_draws {zs rest : List Word} (he : s.entropy = zs ++ rest) (hn : fl.draws.length + zs.length ≤ size)
    (n : Nat) : Sys2Proof.core.run (zs.length + n) s = Sys2Proof.core.run n (afterDraws s fl zs rest) := by
  induction zs generalizing s fl with
  | nil =>
    have hrest : rest = s.entropy := he.symm
    rw [hrest, afterDraws_nil h.inflight, List.length_nil, Nat.zero_add]
  | cons z zs ih =>
    rw [List.length_cons] at hn
    calc Sys2Proof.core.run ((z :: zs).length + n) s
      _ = Sys2Proof.core.run (zs.length + n + 1) s := by rw [List.length_cons, Nat.add_right_comm]
      _ = Sys2Proof.core.run (zs.length + n) (afterDraws s fl [z] (zs ++ rest)) :=
        run_succ (h.step_draw he (by omega)) _
      _ = Sys2Proof.core.run n (afterDraws s fl (z :: zs) rest) := by
        rw [ih (h.draws_taken [z] (zs ++ rest)) rfl (by simp; omega), afterDraws_afterDraws, List.singleton_append]

theorem run_completes (hn : size ≤ fl.draws.length) :
    Sys2Proof.core.run 1 s = .next (s.complete .ok (gsampResult fl d size)) := by
  rw [run_succ (h.step_eq.trans (exec_gsamp_of_drawn h.inflight h.checks_ok hn))]
  rfl

end RunsGsamp

/-- Settles O45: one step for each of the draws, then the completion, which reads them and no offered one. -/
theorem gsampCompletesOnceSupplied : Obligations.GsampCompletesOnceSupplied := by
  intro s fl d size zs rest hs hr hb hf hd hnone hq hsigma hbounds he hlen
  have hruns : RunsGsamp s fl d size := ⟨hs, hr, hb, hf, hd, checks_gsamp_eq_ok.2 ⟨hq, hsigma, hbounds⟩⟩
  subst hlen
  have hdrawn : fl.draws ++ zs = zs := by rw [hnone, List.nil_append]
  have hdone := (hruns.draws_taken zs rest).run_completes (by rw [hdrawn])
  refine ⟨_, (hruns.run_draws he (by rw [hnone, List.length_nil, Nat.zero_add]) 1).trans hdone, rfl, ?_⟩
  rw [complete_afterDraws]
  refine completedWith_gsampResult _ { fl with draws := fl.draws ++ zs } d fun i hi => ?_
  rw [hdrawn, List.getElem?_eq_getElem hi, List.getD_eq_getElem _ _ hi]
  rfl

end Sys2Proof.Proofs

namespace Sys2Proof.Proofs
open Sys2Proof Sys2Proof.Machine

/-! ### The two distances of DecodeBit (spec/43_bit_decoder.md R141) -/

section
variable {raw q : Nat}

theorem circularDistance_of_le_half (h : raw ≤ q / 2) : min raw (q - raw) = raw := by omega

theorem circularDistance_of_half_lt (h : q / 2 < raw) : min raw (q - raw) = q - raw := by omega

theorem halfDistance_of_le_half (h : raw ≤ q / 2) : ((raw : Int) - ((q / 2 : Nat) : Int)).natAbs = q / 2 - raw := by
  omega

theorem halfDistance_of_half_lt (h : q / 2 < raw) : ((raw : Int) - ((q / 2 : Nat) : Int)).natAbs = raw - q / 2 := by
  omega

theorem decodeBit_eq_ite (raw q : Nat) :
    decodeBit raw q = if min raw (q - raw) < ((raw : Int) - ((q / 2 : Nat) : Int)).natAbs then 0 else 1 := rfl

/-- Up to ⌊q/2⌋ the residue itself is compared with its distance to ⌊q/2⌋. -/
theorem decodeBit_of_le_half (h : raw ≤ q / 2) : decodeBit raw q = if raw < q / 2 - raw then 0 else 1 := by
  rw [decodeBit_eq_ite, circularDistance_of_le_half h, halfDistance_of_le_half h]

/-- Above ⌊q/2⌋ the distance up to q is compared with the distance down to ⌊q/2⌋. -/
theorem decodeBit_of_half_lt (h : q / 2 < raw) : decodeBit raw q = if q - raw < raw - q / 2 then 0 else 1 := by
  rw [decodeBit_eq_ite, circularDistance_of_half_lt h, halfDistance_of_half_lt h]

/-- A tie decodes to 1 (spec/43_bit_decoder.md R142): the comparison is strict. -/
theorem decodeBit_of_tie (h : min raw (q - raw) = ((raw : Int) - ((q / 2 : Nat) : Int)).natAbs) :
    decodeBit raw q = 1 := if_neg h.not_lt

end

/-- Settles O49: below the midpoint only the lower end of the band can fail, above it only the upper end. -/
theorem decodeBitClosedForm : Obligations.DecodeBitClosedForm := by
  intro q raw hq hraw
  rcases Nat.lt_or_ge (q / 2) raw with h | h
  · have hupper : q - raw < raw - q / 2 ↔ ¬ ((q / 2 + 1) / 2 ≤ raw ∧ raw ≤ (q + q / 2) / 2) := by omega
    simp only [decodeBit_of_half_lt h, hupper, ite_not]
  · have hlower : raw < q / 2 - raw ↔ ¬ ((q / 2 + 1) / 2 ≤ raw ∧ raw ≤ (q + q / 2) / 2) := by omega
    simp only [decodeBit_of_le_half h, hlower, ite_not]

/-- Settles O50: the lower tie lies at or below the midpoint, the upper one above it. -/
theorem decodeTiesGiveOne : Obligations.DecodeTiesGiveOne := by
  refine fun q raw hq hraw => ⟨?tiePoints, decodeBit_of_tie⟩
  rcases Nat.lt_or_ge (q / 2) raw with h | h
  · rw [circularDistance_of_half_lt h, halfDistance_of_half_lt h]; omega
  · rw [circularDistance_of_le_half h, halfDistance_of_le_half h]; omega

/-! ### Noise (spec/43_bit_decoder.md R145) -/

theorem decodeBit_eq_one_iff {raw q : Nat} (hq : 2 ≤ q) (hraw : raw < q) :
    decodeBit raw q = 1 ↔ (q / 2 + 1) / 2 ≤ raw ∧ raw ≤ (q + q / 2) / 2 := by
  rw [decodeBitClosedForm q raw hq hraw]
  split <;> simp_all

theorem decodeBit_eq_zero_iff {raw q : Nat} (hq : 2 ≤ q) (hraw : raw < q) :
    decodeBit raw q = 0 ↔ raw < (q / 2 + 1) / 2 ∨ (q + q / 2) / 2 < raw := by
  have hone := decodeBit_eq_one_iff hq hraw
  have hbit := decodeBit_le_one raw q
  omega

theorem floormod_of_nonneg {x : Int} {q : Nat} (h0 : 0 ≤ x) (hx : x < q) : (floormod x q : Int) = x := by
  rw [floormod_cast x (by omega), Int.emod_eq_of_lt h0 hx]

theorem floormod_of_neg {x : Int} {q : Nat} (h0 : x < 0) (hx : -(q : Int) ≤ x) : (floormod x q : Int) = x + q := by
  rw [floormod_cast x (by omega), ← Int.add_emod_right, Int.emod_eq_of_lt (by omega) (by omega)]

/-- The bit 0 with noise e: a negative e takes the residue to the top of the range. -/
theorem decodeBit_noisy_zero {q : Nat} {e : Int} (hq : 2 ≤ q) (he : e.natAbs < (q / 2 + 1) / 2) :
    decodeBit (floormod e q) q = 0 := by
  rw [decodeBit_eq_zero_iff hq (floormod_lt e (by omega))]
  rcases Int.lt_or_le e 0 with h | h
  · have hresidue := floormod_of_neg (x := e) (q := q) h (by omega)
    omega
  · have hresidue := floormod_of_nonneg (x := e) (q := q) h (by omega)
    omega

/-- The bit 1 with noise e: ⌊q/2⌋ + e is its own residue. -/
theorem decodeBit_noisy_one {q : Nat} {e : Int} (hq : 2 ≤ q) (he : e.natAbs < (q / 2 + 1) / 2) :
    decodeBit (floormod (((q / 2 : Nat) : Int) + e) q) q = 1 := by
  rw [decodeBit_eq_one_iff hq (floormod_lt _ (by omega))]
  have hresidue := floormod_of_nonneg (x := ((q / 2 : Nat) : Int) + e) (q := q) (by omega) (by omega)
  omega

/-- Settles O51: small noise bit by bit. At q = 3329 the shift that takes e to its residue, or to its
residue less q for the part of the 0-set above the band, puts it into the interval. -/
theorem decodeToleratesNoise : Obligations.DecodeToleratesNoise := by
  refine ⟨fun q b e hq hb he => ?general, fun e => ⟨?zero, ?one⟩⟩
  case general =>
    obtain rfl | rfl := Nat.le_one_iff_eq_zero_or_eq_one.1 hb
    · simpa using decodeBit_noisy_zero hq he
    · simpa using decodeBit_noisy_one hq he
  case zero =>
    have hcast : (floormod e 3329 : Int) = e % 3329 := floormod_cast e (by decide)
    rw [decodeBit_eq_zero_iff (by decide) (floormod_lt e (by decide))]
    constructor
    · rintro (h | h)
      · exact ⟨-(e / 3329), by omega⟩
      · exact ⟨-(e / 3329) - 1, by omega⟩
    · rintro ⟨n, h⟩; omega
  case one =>
    have hcast : (floormod (1664 + e) 3329 : Int) = (1664 + e) % 3329 := floormod_cast _ (by decide)
    rw [decodeBit_eq_one_iff (by decide) (floormod_lt _ (by decide))]
    constructor
    · intro h; exact ⟨-((1664 + e) / 3329), by omega⟩
    · rintro ⟨n, h⟩; omega

/-! ### Residues of the operands (spec/43_bit_decoder.md R148) -/

theorem decodeRaw_cast (v w : Elem) {q : Nat} (hq : 0 < q) :
    (decodeRaw v w q : Int) = ((v.toNat : Int) - (w.toNat : Int)) % q := floormod_cast _ hq

theorem decodeRaw_lt (v w : Elem) {q : Nat} (hq : 0 < q) : decodeRaw v w q < q := floormod_lt _ hq

theorem decodeRaw_self (v : Elem) (q : Nat) : decodeRaw v v q = 0 := by
  rw [decodeRaw, Int.sub_self, floormod, Int.zero_emod, Int.toNat_zero]

theorem decodeBit_zero {q : Nat} (hq : 2 ≤ q) : decodeBit 0 q = 0 := by
  rw [decodeBit_of_le_half (Nat.zero_le _), if_pos (by omega)]

/-- Settles O52: floor modulo of a difference needs only the residues, and 0 is at distance 0. -/
theorem decodeDependsOnResidues : Obligations.DecodeDependsOnResidues := by
  refine ⟨fun v w q hq => ?residues, fun v q hq => ?equal⟩
  case residues =>
    have hpos : 0 < q := by omega
    rw [decodeRaw, floormod_cast _ hpos, floormod_cast _ hpos, floormod, floormod, ← Int.sub_emod]
  case equal => rw [decodeRaw_self, decodeBit_zero hq]

/-! ### DECB on written operands -/

/-- DecodeBit as R141 words it, on exact integers. -/
theorem decodeBit_eq_ite_int {raw q : Nat} (hraw : raw ≤ q) :
    decodeBit raw q = if min (raw : Int) (q - raw) < |(raw : Int) - ((q / 2 : Nat) : Int)| then 0 else 1 := by
  have hdistances : min raw (q - raw) < ((raw : Int) - ((q / 2 : Nat) : Int)).natAbs ↔
      min (raw : Int) (q - raw) < |(raw : Int) - ((q / 2 : Nat) : Int)| := by
    rw [← Int.ofNat_lt, Int.natCast_natAbs, Nat.cast_min, Nat.cast_sub hraw]
  simp only [decodeBit_eq_ite, hdistances]

/-- Settles O48: the checks pass, and each entry is the bit of the residue of v − w. -/
theorem decbWritesBits : Obligations.DecbWritesBits := by
  intro s fl d v w x y hf hq hrows hcols hv hw hd hx hy
  have hc : checks (.decb d v w) fl s.memWords = .ok :=
    checks_pair_eq_ok rfl rfl rfl hq (by simp [shapeOk, hrows, hcols]) hv hw hd
  rw [exec_of_ready hf hc (not_needsDraw nofun)]
  refine succeed_matrix s fun i j hi hj => ?_
  have hpos : 0 < fl.q.toNat := by omega
  rw [decbEntry_eq (elem_of_holds hx hi hj) (elem_of_holds hy (hrows ▸ hi) (hcols ▸ hj)),
    decodeBit_eq_ite_int (decodeRaw_lt _ _ hpos).le, decodeRaw_cast _ _ hpos, apply_ite toElem]
  rfl

end Sys2Proof.Proofs

namespace Sys2Proof.Proofs
open Sys2Proof Sys2Proof.Machine

/-! ### The pin rst_n (spec/70_reset_and_hazards.md R171, R172) -/

/-- A rising pin leaves the block in the reset state, out of reset. -/
theorem driveRstN_rise {s : State} (h : s.rstN = false) : s.driveRstN true = { s.powerOnReset with rstN := true } := by
  rw [State.driveRstN, if_pos rfl, h, if_neg Bool.false_ne_true]

/-- A step whose turn is the pin's drives the pin. -/
theorem step_of_sched_rstN {s : State} {level : Bool} {rest : List Turn} (h : s.sched = .rstN level :: rest) :
    step s = .next (State.driveRstN { s with sched := rest } level) := by
  rw [step_of_sched_cons h, afterPop_of_sched_cons h]; rfl

section
variable {s : State} (h : s.rstN = false)
include h

theorem hostAccess_refused_of_rstN_low (a : Access) : hostAccess a s = .refused .accessDuringReset := by
  rw [hostAccess, h]; rfl

theorem executorTurn_of_rstN_low : executorTurn s = .next s := by
  rw [executorTurn, h]; rfl

theorem entReady_of_rstN_low : s.entReady = false := by
  rw [State.entReady, h]; rfl

end

theorem irq_of_registersReset {s : State} (h : registersReset s) : s.irq = false := by
  obtain ⟨hie, -⟩ := h
  rw [State.irq, hie, Bool.false_and]

/-- Settles O4: the two edges of the pin are power-on resets, and between them neither the host nor the executor has a
step. -/
theorem powerOnResetHoldsBlock : Obligations.PowerOnResetHoldsBlock := by
  refine ⟨fun s rest hs => ?fall, fun s hlow => ?hold, fun s rest hlow hs => ?rise⟩
  case fall =>
    exact ⟨_, step_of_sched_rstN hs, rfl, registersReset_powerOnReset { s with sched := rest }, fun _ => rfl, rfl, rfl,
      rfl, rfl, rfl⟩
  case hold =>
    refine ⟨hostAccess_refused_of_rstN_low hlow, executorTurn_of_rstN_low hlow, entReady_of_rstN_low hlow,
      fun hinv => ?_⟩
    obtain ⟨hregs, hmem⟩ := hinv.held hlow
    exact ⟨hregs, fun _ => by rw [hmem]; rfl, irq_of_registersReset hregs⟩
  case rise =>
    rw [step_of_sched_rstN hs, driveRstN_rise (s := { s with sched := rest }) hlow]
    exact ⟨_, rfl, rfl, registersReset_powerOnReset { s with sched := rest }, fun _ => rfl, rfl⟩

/-! ### Accesses while BUSY (R178, R179) -/

/-- Settles O11: CMD is never blocked, and the write of a busy block is the overrun. -/
theorem cmdWriteWhileBusyDropped : Obligations.CmdWriteWhileBusyDropped := by
  intro s w hr hb
  have hacc : s.rejects .cmd = false := rejects_eq_false (.inr rfl) rfl
  rw [hostAccess_wordWrite_accepted hr (by decide) (by decide) targetOf_cmd hacc, writeTarget_cmd_busy w hb]
  rfl

/-- Every descriptor offset is that of a DESCk_BASE or of a DESCk_SHAPE. -/
theorem exists_descIdx_of_offset {off : Nat} (ha : off % 4 = 0) (hlo : 0x100 ≤ off) (hhi : off < 0x180) :
    ∃ k : DescIdx, off = 0x100 + 8 * k.val ∨ off = 0x104 + 8 * k.val :=
  ⟨⟨(off - 0x100) / 8, by omega⟩, by dsimp only; omega⟩

/-- The offsets of Q, SIGMA, the descriptors and the window are blocked while BUSY. -/
theorem blockedWhileBusy_of_operandOffset {off : Nat} (ha : off % 4 = 0)
    (h : off = 0x010 ∨ off = 0x014 ∨ (0x100 ≤ off ∧ off < 0x180) ∨ 0x400000 ≤ off) :
    (targetOf off).blockedWhileBusy = true := by
  obtain rfl | rfl | ⟨hlo, hhi⟩ | hwindow := h
  · rfl
  · rfl
  · obtain ⟨k, rfl | rfl⟩ := exists_descIdx_of_offset ha hlo hhi
    · rw [targetOf_descBase]; rfl
    · rw [targetOf_descShape]; rfl
  · obtain ⟨i, rfl⟩ : ∃ i, off = 0x400000 + 4 * i := ⟨(off - 0x400000) / 4, by omega⟩
    rw [targetOf_windowOffset]; rfl

/-- The offsets of ID, CTRL, STATUS, CMD and the reserved offsets are not blocked while BUSY. -/
theorem not_blockedWhileBusy_of_accessibleOffset {off : Nat} (ha : off % 4 = 0)
    (h : off < 0x010 ∨ (0x018 ≤ off ∧ off < 0x100) ∨ (0x180 ≤ off ∧ off < 0x400000)) :
    (targetOf off).blockedWhileBusy = false := by
  obtain hlow | hreserved := h
  · obtain rfl | rfl | rfl | rfl : off = 0x000 ∨ off = 0x004 ∨ off = 0x008 ∨ off = 0x00C := by omega
    all_goals rfl
  · rw [targetOf_reserved hreserved]; rfl

theorem rejects_of_blockedWhileBusy {s : State} {x : Target} (hb : s.status.busy = true)
    (hx : x.blockedWhileBusy = true) : s.rejects x = true := by
  rw [State.rejects, hb, hx]; rfl

section
variable {x : Target} (hx : x.blockedWhileBusy = false)
include hx

/-- Only a window word can be out of range, and BUSY blocks the window. -/
theorem rejects_of_not_blockedWhileBusy (s : State) : s.rejects x = false := by
  refine rejects_eq_false (.inr hx) ?_
  cases x with
  | mem i => cases hx
  | _ => rfl

/-- Only a window read can be a fault of the model, and BUSY blocks the window. -/
theorem readTarget_of_not_blockedWhileBusy (s : State) : ∃ v, s.readTarget x = .next (s.answer v) := by
  cases x with
  | mem i => cases hx
  | _ => exact ⟨_, rfl⟩

end

/-- No accepted write raises ACCERR. -/
theorem writeTarget_accerr {s : State} {w : Word} {x : Target} (h : s.status.accerr = false) :
    (s.writeTarget w x).status.accerr = false := by
  cases x with
  | status => rw [State.writeTarget_status, State.writeEffect, Status.writeOneToClear_accerr, h, Bool.false_and]
  | ctrl =>
    cases hw : w.getLsbD 1 with
    | true => rw [writeTarget_ctrl_softReset s hw]; rfl
    | false => rw [writeTarget_ctrl_ie s hw]; exact h
  | cmd =>
    cases hb : s.status.busy with
    | true => rw [writeTarget_cmd_busy w hb]; exact h
    | false => rw [writeTarget_cmd_idle w hb]; exact h
  | _ => exact h

/-- Settles O15: the two offset ranges are those of the targets that BUSY blocks and of those that it does not. -/
theorem busyBlocksOperandAccess : Obligations.BusyBlocksOperandAccess := by
  intro s off hr hb ha hlt
  refine ⟨fun hoff => ?blocked, fun hoff => ?accessible⟩
  case blocked =>
    have hrej := rejects_of_blockedWhileBusy hb (blockedWhileBusy_of_operandOffset ha hoff)
    refine ⟨?_, fun w => ?_⟩
    · rw [hostAccess_wordRead hr hlt ha rfl, if_pos hrej]; rfl
    · rw [hostAccess_wordWrite hr hlt ha rfl, if_pos hrej]; rfl
  case accessible =>
    have hfree := not_blockedWhileBusy_of_accessibleOffset ha hoff
    have hacc := rejects_of_not_blockedWhileBusy hfree s
    refine ⟨?_, fun w => ⟨_, hostAccess_wordWrite_accepted hr hlt ha rfl hacc w, writeTarget_accerr⟩⟩
    rw [hostAccess_wordRead_accepted hr hlt ha rfl hacc]
    exact readTarget_of_not_blockedWhileBusy hfree s

end Sys2Proof.Proofs
